-- ==== Sys2Proof/Word.lean ====
section
/-! DEFINITION. The two word sizes of the core: the byte and the 64-bit datapath word (spec/00_scope.md R7, R9). -/

namespace Sys2Proof

/-- A byte: 8 bits, value 0 to 255, unsigned (R9). -/
abbrev Byte := BitVec 8

/-- A datapath word: 64 bits, unsigned; `+` is addition modulo 2^64, `^^^` exclusive or, `~~~` complement (R9, R12). -/
abbrev Word := BitVec 64

/-- Sixteen bytes: a salt or a personalization string (R7 `SALTBYTES`, `PERSONALBYTES`). -/
abbrev Bytes16 := Vector Byte 16

end Sys2Proof
end

