-- ==== Sys2Proof/Machine/Codec.lean ====
section
/-! DEFINITION. The Word Codec (spec/40_word_codec.md): little-endian conversion between 8 bytes and a 64-bit word, and the
slices of longer byte strings it is applied to. -/

namespace Sys2Proof.Machine

/-- `load64(b)`: 8 bytes to a word, the byte at the lowest index least significant (R110). -/
def load64 (b : Vector Byte 8) : Word :=
  b[0].setWidth 64 + (b[1].setWidth 64 <<< 8) + (b[2].setWidth 64 <<< 16) + (b[3].setWidth 64 <<< 24)
    + (b[4].setWidth 64 <<< 32) + (b[5].setWidth 64 <<< 40) + (b[6].setWidth 64 <<< 48) + (b[7].setWidth 64 <<< 56)

/-- `store64(w)`: word to 8 bytes, `b[i] = (w >> (8*i))[7:0]` (R111). -/
def store64 (w : Word) : Vector Byte 8 :=
  Vector.ofFn fun i : Fin 8 => (w >>> (8 * i.val)).setWidth 8

/-- The 64-bit little-endian lane `load64(b[8i..8i+8))` of a byte string (R54, R113, R125). -/
def lane {n : Nat} (b : Vector Byte n) (i : Nat) (h : 8 * i + 8 ≤ n) : Word :=
  load64 (Vector.ofFn fun j : Fin 8 => b[8 * i + j.val]'(by omega))

/-- The first `n` bytes of a list as a vector, padded with zeros where the list is shorter. -/
def takeVec (n : Nat) (bs : List Byte) : Vector Byte n :=
  Vector.ofFn fun i : Fin n => bs.getD i.val 0

end Sys2Proof.Machine
end

