-- ==== Sys2Proof/Syntax.lean ====
section
/-! DEFINITION. The commands of the core as abstract terms, one constructor per row of spec/opcode_table.json, each with the
operands that spec/30_encoding.md R88, R89 assemble from its packet (and spec/43_state_machine.md R153 to R156 take). -/

namespace Sys2Proof

/-- The four commands. An operand is what the packet says: `dlen`, `olen` are the 8-bit fields whether legal or not (R94),
and an absent salt or personalization is `none` (R88, R98). -/
inductive Instr where
  /-- INIT: `init(digest_length, salt?, personal?)` (R83, R153). -/
  | init (dlen : Byte) (salt personal : Option Bytes16)
  /-- INIT_KEY: `init_key(digest_length, key_bytes, salt?, personal?)` (R84, R154). -/
  | initKey (dlen : Byte) (key : List Byte) (salt personal : Option Bytes16)
  /-- UPDATE: `update(State, bytes)` (R85, R155). -/
  | update (bytes : List Byte)
  /-- FINAL: `final(State, outlen)` (R86, R156). -/
  | final (olen : Byte)
  deriving DecidableEq, Repr

end Sys2Proof
end

