-- ==== Sys2Proof/WellFormed.lean ====
section
/-! DEFINITION. Which commands one packet can carry: the widths of the length fields (spec/30_encoding.md R84, R85).
The meanings do not need these checks (the abstract UPDATE takes a byte string of any finite length, spec/90_conflicts.md C11);
encoding does. -/

namespace Sys2Proof

/-- `i` fits one packet: a key has at most 255 bytes (`KLEN` is 8 bits, R84) and a chunk at most 2^56 - 1 (`LEN` is 56 bits,
R85). -/
def Instr.wf : Instr → Bool
  | .init _ _ _ => true
  | .initKey _ key _ _ => decide (key.length < 2 ^ 8)
  | .update bytes => decide (bytes.length < 2 ^ 56)
  | .final _ => true

end Sys2Proof
end

