-- ==== Sys2Proof/Decode.lean ====
section
/-! DEFINITION. The packet decoder and, after it, the encoder (spec/30_encoding.md R80 to R95, R100). Decoding is total: every
packet is one of the four commands or is rejected by name; a byte string that does not hold a whole packet is `incomplete`. -/

namespace Sys2Proof

open Sys2Proof.Machine

/-- A packet: the command word and the payload bytes after it (R80). -/
structure Packet where
  word : Word
  payload : List Byte
  deriving DecidableEq, Repr

/-- The packet as it lies on the command stream: the word least significant byte first, then the payload (R80, R81). -/
def Packet.bytes (p : Packet) : List Byte :=
  (store64 p.word).toList ++ p.payload

/-- Field `OPC = W[63:56]` (R82). -/
def opc (w : Word) : Byte := w.extractLsb' 56 8

/-- Field `DLEN` of formats I and K and `OLEN` of format F, `W[55:48]` (R83, R84, R86). -/
def lengthField (w : Word) : Byte := w.extractLsb' 48 8

/-- Field `KLEN = W[47:40]` of format K (R84). -/
def klen (w : Word) : Byte := w.extractLsb' 40 8

/-- Field `LEN = W[55:0]` of format U (R85). -/
def lenField (w : Word) : BitVec 56 := w.extractLsb' 0 56

/-- Bit `S = W[0]`: a salt is in the payload (R83). -/
def saltBit (w : Word) : Bool := w.getLsbD 0

/-- Bit `P = W[1]`: a personalization is in the payload (R83). -/
def personalBit (w : Word) : Bool := w.getLsbD 1

/-- Bytes that one presence bit adds to the payload: 16 or none (R87). -/
def optLen (present : Bool) : Nat := if present then 16 else 0

/-- `paylen(W)`: payload length, a function of the command word alone, whatever the reserved bits hold (R87). -/
def paylen (w : Word) : Nat :=
  if opc w = 0x01 then optLen (saltBit w) + optLen (personalBit w)
  else if opc w = 0x02 then (klen w).toNat + optLen (saltBit w) + optLen (personalBit w)
  else if opc w = 0x03 then (lenField w).toNat
  else 0

/-- The fields of a legal command word (R83 to R86). -/
inductive Header where
  | init (dlen : Byte) (s p : Bool)
  | initKey (dlen klen : Byte) (s p : Bool)
  | update (len : BitVec 56)
  | final (olen : Byte)
  deriving DecidableEq, Repr

/-- Why a command word is no command; both are answered with the status `IllegalCommand` (R92, R93, R197). -/
inductive IllegalWord where
  /-- Opcode 0x00 or 0x05 to 0xFF (R92). -/
  | reservedOpcode
  /-- A defined opcode with a nonzero reserved bit (R93). -/
  | reservedBits
  deriving DecidableEq, Repr

/-- What a command word is. -/
inductive WordDecode where
  | header (h : Header)
  | illegal (why : IllegalWord)
  deriving DecidableEq, Repr

/-- `decode(W)`, the procedure of R95. -/
def decodeWord (w : Word) : WordDecode :=
  if opc w = 0x01 then
    if w.extractLsb' 2 46 ≠ 0 then .illegal .reservedBits
    else .header (.init (lengthField w) (saltBit w) (personalBit w))
  else if opc w = 0x02 then
    if w.extractLsb' 2 38 ≠ 0 then .illegal .reservedBits
    else .header (.initKey (lengthField w) (klen w) (saltBit w) (personalBit w))
  else if opc w = 0x03 then .header (.update (lenField w))
  else if opc w = 0x04 then
    if w.extractLsb' 0 48 ≠ 0 then .illegal .reservedBits
    else .header (.final (lengthField w))
  else .illegal .reservedOpcode

/-- "the next 16 payload bytes" if the presence bit is set, else absent (R88). -/
def optBytes16 (present : Bool) (bs : List Byte) : Option Bytes16 :=
  if present then some (takeVec 16 bs) else none

/-- Operand assembly: the command that a header and its payload make (R88, R89). -/
def assemble : Header → List Byte → Instr
  | .init d s p, pl => .init d (optBytes16 s pl) (optBytes16 p (pl.drop (optLen s)))
  | .initKey d k s p, pl =>
    .initKey d (pl.take k.toNat) (optBytes16 s (pl.drop k.toNat)) (optBytes16 p (pl.drop (k.toNat + optLen s)))
  | .update len, pl => .update (pl.take len.toNat)
  | .final o, _ => .final o

/-- What a packet decodes to. -/
inductive Decoded where
  | instr (i : Instr)
  | illegal (why : IllegalWord)
  deriving DecidableEq, Repr

/-- The decoder of one packet (R95, then R88, R89). -/
def decode (p : Packet) : Decoded :=
  match decodeWord p.word with
  | .header h => .instr (assemble h p.payload)
  | .illegal why => .illegal why

/-- What the front of a byte string is. -/
inductive StreamDecode where
  /-- A whole packet and the bytes after it. -/
  | packet (d : Decoded) (rest : List Byte)
  /-- Fewer bytes than the packet has (R226: the core waits). -/
  | incomplete
  deriving DecidableEq, Repr

/-- Framing: the first packet of a byte string, `8 + paylen(W)` bytes of it (R80, R87). -/
def framePacket (bs : List Byte) : Option (Packet × List Byte) :=
  if bs.length < 8 then none
  else
    let w := load64 (takeVec 8 bs)
    if bs.length < 8 + paylen w then none
    else some (⟨w, (bs.drop 8).take (paylen w)⟩, bs.drop (8 + paylen w))

/-- The decoder of a byte string: total, and in step with the stream after an illegal word too (R87, R92, R93, R95). -/
def decodeBytes (bs : List Byte) : StreamDecode :=
  match framePacket bs with
  | some (p, rest) => .packet (decode p) rest
  | none => .incomplete

/-- The command word of a command, field by field from the format tables (R83 to R86, most significant field first). -/
def encodeWord : Instr → Word
  | .init d s p => 0x01#8 ++ d ++ 0#46 ++ BitVec.ofBool p.isSome ++ BitVec.ofBool s.isSome
  | .initKey d key s p =>
    0x02#8 ++ d ++ BitVec.ofNat 8 key.length ++ 0#38 ++ BitVec.ofBool p.isSome ++ BitVec.ofBool s.isSome
  | .update bytes => 0x03#8 ++ BitVec.ofNat 56 bytes.length
  | .final o => 0x04#8 ++ o ++ 0#48

/-- The bytes of an optional 16-byte operand: none when it is absent (R83). -/
def optToBytes : Option Bytes16 → List Byte
  | some b => b.toList
  | none => []

/-- The payload of a command, in stream order (R83 to R86). -/
def encodePayload : Instr → List Byte
  | .init _ s p => optToBytes s ++ optToBytes p
  | .initKey _ key s p => key ++ optToBytes s ++ optToBytes p
  | .update bytes => bytes
  | .final _ => []

/-- The packet of a command. -/
def encode (i : Instr) : Packet := ⟨encodeWord i, encodePayload i⟩

/-- The low `n` bytes of a number, least significant first. -/
def bytesOfNat : Nat → Nat → List Byte
  | 0, _ => []
  | n + 1, v => BitVec.ofNat 8 v :: bytesOfNat n (v / 256)

/-- The packet whose bits are `w` as spec/opcode_table.json numbers them: bits 63..0 are the command word, higher bits are
payload bytes in order, and every bit at or above `nbits` is 0 (notes/assumptions/17.md). -/
def tablePacket (nbits w : Nat) : Packet :=
  let v := w % 2 ^ nbits
  let word := BitVec.ofNat 64 v
  ⟨word, bytesOfNat (paylen word) (v / 2 ^ 64)⟩

/-- The command the decoder reads from an instruction whose bits are `w` (none where it rejects the word). -/
def decodeTableWord (nbits w : Nat) : Option Instr :=
  match decode (tablePacket nbits w) with
  | .instr i => some i
  | .illegal _ => none

end Sys2Proof
end

