-- ==== Sys2Proof/Machine/Compression.lean ====
section
/-! DEFINITION. The Compression Core (spec/41_compression.md): the constant tables, the mixing primitive G, one round, and
COMPRESS as a pure function of its four operands (R127). The values of `IV`, `SIGMA`, the order inside G and the index tuples
are the spec's passages from general knowledge (notes/assumptions/10.md). -/

namespace Sys2Proof.Machine

/-- `IV[0..8)` (R120). -/
def IV : Vector Word 8 := #v[
  0x6a09e667f3bcc908, 0xbb67ae8584caa73b, 0x3c6ef372fe94f82b, 0xa54ff53a5f1d36f1,
  0x510e527fade682d1, 0x9b05688c2b3e6c1f, 0x1f83d9abfb41bd6b, 0x5be0cd19137e2179]

/-- `SIGMA[0..10)[0..16)` (R121). -/
def SIGMA : Vector (Vector (Fin 16) 16) 10 := #v[
  #v[0, 1, 2, 3, 4, 5, 6, 7, 8, 9, 10, 11, 12, 13, 14, 15],
  #v[14, 10, 4, 8, 9, 15, 13, 6, 1, 12, 0, 2, 11, 7, 5, 3],
  #v[11, 8, 12, 0, 5, 2, 15, 13, 10, 14, 3, 6, 7, 1, 9, 4],
  #v[7, 9, 3, 1, 13, 12, 11, 14, 2, 6, 5, 10, 4, 0, 15, 8],
  #v[9, 0, 5, 7, 2, 4, 10, 15, 14, 1, 11, 12, 6, 8, 3, 13],
  #v[2, 12, 6, 10, 0, 11, 8, 3, 4, 13, 7, 5, 15, 14, 1, 9],
  #v[12, 5, 1, 15, 14, 13, 4, 10, 0, 7, 6, 3, 9, 2, 8, 11],
  #v[13, 11, 7, 14, 12, 1, 3, 9, 5, 0, 15, 4, 8, 6, 2, 10],
  #v[6, 15, 14, 9, 11, 3, 0, 8, 12, 2, 13, 7, 1, 4, 10, 5],
  #v[10, 2, 8, 4, 7, 6, 1, 5, 15, 11, 9, 14, 3, 12, 13, 0]]

/-- `rotr(a, n)`, 0 < n < 64: `(a >> n) | (a << (64 - n))` (R12). -/
def rotr (a : Word) (n : Nat) : Word := (a >>> n) ||| (a <<< (64 - n))

/-- The work vector `v[0..16)`, and the message words `m[0..16)` (R31, R32). -/
abbrev Words16 := Vector Word 16

/-- `G(v, a, b, c, d, x, y)`: eight statements, each using the values the ones before it left (R123). -/
def mixG (v : Words16) (a b c d : Fin 16) (x y : Word) : Words16 :=
  let v := v.set a (v[a] + v[b] + x)
  let v := v.set d (rotr (v[d] ^^^ v[a]) 32)
  let v := v.set c (v[c] + v[d])
  let v := v.set b (rotr (v[b] ^^^ v[c]) 24)
  let v := v.set a (v[a] + v[b] + y)
  let v := v.set d (rotr (v[d] ^^^ v[a]) 16)
  let v := v.set c (v[c] + v[d])
  v.set b (rotr (v[b] ^^^ v[c]) 63)

/-- The SIGMA row of round `r`: row `r mod 10` (R121, R124). -/
def sigmaRow (r : Nat) : Vector (Fin 16) 16 :=
  SIGMA[r % 10]'(Nat.mod_lt r (by decide))

/-- The four column mixes of a round (R124). -/
def columnMixes (v m : Words16) (s : Vector (Fin 16) 16) : Words16 :=
  let v := mixG v 0 4 8 12 m[s[0]] m[s[1]]
  let v := mixG v 1 5 9 13 m[s[2]] m[s[3]]
  let v := mixG v 2 6 10 14 m[s[4]] m[s[5]]
  mixG v 3 7 11 15 m[s[6]] m[s[7]]

/-- The four diagonal mixes of a round (R124). -/
def diagonalMixes (v m : Words16) (s : Vector (Fin 16) 16) : Words16 :=
  let v := mixG v 0 5 10 15 m[s[8]] m[s[9]]
  let v := mixG v 1 6 11 12 m[s[10]] m[s[11]]
  let v := mixG v 2 7 8 13 m[s[12]] m[s[13]]
  mixG v 3 4 9 14 m[s[14]] m[s[15]]

/-- `ROUND(v, m, r)`: four column mixes, then four diagonal mixes (R124). -/
def mixRound (v m : Words16) (r : Nat) : Words16 :=
  diagonalMixes (columnMixes v m (sigmaRow r)) m (sigmaRow r)

/-- `n` rounds from round `r` on. -/
def rounds (m : Words16) : Nat → Nat → Words16 → Words16
  | 0, _, v => v
  | n + 1, r, v => rounds m n (r + 1) (mixRound v m r)

/-- The message words of a block: `m[i] = load64(block[8i..8i+8))` (R125). -/
def messageWords (block : Vector Byte 128) : Words16 :=
  Vector.ofFn fun i : Fin 16 => lane block i.val (by omega)

/-- The work vector before the rounds: `h`, then IV with the counter XORed in and words 14, 15 complemented under the flags
(R126). -/
def workVector (h : Vector Word 8) (t0 t1 : Word) (f0 f1 : Bool) : Words16 :=
  let v : Words16 := Vector.ofFn fun i : Fin 16 => if _ : i.val < 8 then h[i.val] else IV[i.val - 8]
  let v := v.set 12 (v[12] ^^^ t0)
  let v := v.set 13 (v[13] ^^^ t1)
  let v := if f0 then v.set 14 (~~~v[14]) else v
  if f1 then v.set 15 (~~~v[15]) else v

/-- The feed-forward `h[i] ^ v[i] ^ v[8 + i]` (R126). -/
def feedForward (h : Vector Word 8) (v : Words16) : Vector Word 8 :=
  Vector.ofFn fun i : Fin 8 => h[i.val] ^^^ v[i.val] ^^^ v[8 + i.val]

/-- `COMPRESS(h, block, t, f)` without its event record: exactly 12 rounds (R126, R127). -/
def compress (h : Vector Word 8) (block : Vector Byte 128) (t0 t1 : Word) (f0 f1 : Bool) : Vector Word 8 :=
  feedForward h (rounds (messageWords block) 12 0 (workVector h t0 t1 f0 f1))

end Sys2Proof.Machine
end

