-- ==== Sys2Proof/Config.lean ====
section
/-! DEFINITION. The free values: what the spec leaves open and the model does not choose.
A reset event makes every state element except `phase` "unspecified" (spec/70_reset_and_hazards.md R220,
spec/93_implementation_defined.md U6: any value). Reset event number `n` of a run reads the constants below at `n`;
they have no body, so no proof can see a value of theirs (notes/assumptions/2.md). -/

namespace Sys2Proof.Config

/-- `h` after reset event `n`. -/
opaque resetH : Nat → Vector Word 8

/-- `t[0]` after reset event `n`. -/
opaque resetT0 : Nat → Word

/-- `t[1]` after reset event `n`. -/
opaque resetT1 : Nat → Word

/-- `f[0]` after reset event `n`. -/
opaque resetF0 : Nat → Bool

/-- `f[1]` after reset event `n`. -/
opaque resetF1 : Nat → Bool

/-- `last_node` after reset event `n`. -/
opaque resetLastNode : Nat → Bool

/-- `buflen` after reset event `n`: any of its legal values 0 to 256 (R26). -/
opaque resetBuflen : Nat → Fin 257

/-- Byte `a` of `buf` after reset event `n`. -/
opaque resetBufByte : Nat → Nat → Byte

end Sys2Proof.Config
end

