-- ==== Sys2Proof/Machine/State.lean ====
section
/-! DEFINITION. The state of the core (spec/10_state.md), the host's two streams (spec/20_memory.md R56, R57), the reasons a
step can stop, and the state after reset (R44). Plain data throughout. -/

namespace Sys2Proof.Machine

/-- `buf`, as the cells of it that do not read as 0: addresses strictly rising, no cell holding 0 (`Memory.wf` in Ops). What an
unlisted address reads as is `Memory.unlisted` (notes/assumptions/8.md). -/
abbrev Memory := List Host.Cell

/-- `phase`, the sequencing state (R28); its two-bit code is `Phase.code` in Ops. -/
inductive Phase where
  /-- No session has been started since reset. -/
  | idle
  /-- A session was started by INIT and no UPDATE has been executed. -/
  | fresh
  /-- At least one UPDATE has been executed, or the session was started by INIT_KEY. -/
  | absorbing
  /-- FINAL has been executed. -/
  | finalized
  deriving DecidableEq, Repr

/-- The five errors a command can end in (spec/60_exceptions.md R190); the status byte of each is `CmdError.code` in Ops. -/
inductive CmdError where
  /-- A length operand of INIT, INIT_KEY or FINAL is out of range (R191). -/
  | invalidParameter
  /-- INIT_KEY with an empty key (R192). -/
  | invalidKey
  /-- UPDATE or FINAL in phase Finalized (R193). -/
  | useAfterFinalize
  /-- UPDATE or FINAL in phase Idle (R196). -/
  | noSession
  /-- A reserved opcode or a nonzero reserved bit (R197). -/
  | illegalCommand
  deriving DecidableEq, Repr

/-- A response: status OK with its data bytes, or an error's status alone (R96). -/
inductive Response where
  | ok (data : List Byte)
  | error (e : CmdError)
  deriving DecidableEq, Repr

/-- `CompressEvent(h_in, block, t, f, h_out)`, the record of one COMPRESS (R43). -/
structure CompressEvent where
  hIn : Vector Word 8
  block : Vector Byte 128
  t0 : Word
  t1 : Word
  f0 : Bool
  f1 : Bool
  hOut : Vector Word 8
  deriving DecidableEq, Repr

/-- What the host does to the core, in order (R59, R220; notes/assumptions/3.md, 4.md). -/
inductive HostEvent where
  /-- The host puts one byte on the command stream (R56). -/
  | byte (b : Byte)
  /-- The host asserts reset while no command is executing: between packets, or inside a partly received one (R220). -/
  | reset
  /-- The host asserts reset while the command whose packet ends just before is executing (R220: it is abandoned without a
  response); with no whole packet just before it, the same as `reset`. -/
  | resetDuringCommand
  deriving DecidableEq, Repr

/-- Everything the spec gives the machine, and the streams it is connected by. -/
structure State where
  /-- The state-machine state (R28). -/
  phase : Phase
  /-- The chaining value `h[0..8)` (R20). -/
  h : Vector Word 8
  /-- `t[0]`, the low half of the byte counter (R21). -/
  t0 : Word
  /-- `t[1]`, the high half of the byte counter (R21). -/
  t1 : Word
  /-- `f[0]`, the last-block flag (R23). -/
  f0 : Bool
  /-- `f[1]`, the last-node flag (R24). -/
  f1 : Bool
  /-- The tree-mode marker (R27). -/
  lastNode : Bool
  /-- The two-block buffer `buf[0..256)` (R25). -/
  buf : Memory
  /-- The fill level of `buf`, 0 to 256 (R26). -/
  buflen : Fin 257
  /-- The compression event log of the session (R43). -/
  events : List CompressEvent
  /-- The host's events not yet consumed: the command stream (R56) with the host's resets in their place. -/
  input : List HostEvent
  /-- The responses emitted, oldest first: the response stream (R57). -/
  responses : List Response
  /-- The model's own: how many reset events this run has taken, the index of the free values (notes/assumptions/2.md). -/
  resets : Nat
  deriving DecidableEq, Repr

/-- Why the machine has no next step. Neither is an error of a command: errors are responses (R195) and the run goes on. -/
inductive Fault where
  /-- Raised by `step` when the host has nothing on the stream: the core holds its state between packets (R208) and the run is
  finished. Safe: nothing is concluded about what the host sends next. -/
  | streamEmpty
  /-- Raised by `step` when the stream ends inside a packet: the core waits, the command does not execute and no response is
  emitted (R226; spec/93_implementation_defined.md U12 "stuck"). Safe: no behaviour is claimed. -/
  | packetIncomplete
  deriving DecidableEq, Repr

/-- Why an instruction has no meaning. -/
inductive Refusal where
  /-- Raised by `exec` for an instruction the model gives no meaning yet. Safe. No arm raises it now. -/
  | notModelled (mnemonic : String)
  deriving DecidableEq, Repr

/-- The machine after reset: phase Idle and an empty event log as the spec says (R44, R221). The spec leaves every other
element unspecified; the zeros are the model's DESIGN CHOICE (notes/assumptions/1.md, unsafe). -/
def State.reset : State where
  phase := .idle
  h := Vector.replicate 8 0
  t0 := 0
  t1 := 0
  f0 := false
  f1 := false
  lastNode := false
  buf := []
  buflen := 0
  events := []
  input := []
  responses := []
  resets := 0

end Sys2Proof.Machine
end

