-- ==== Sys2Proof/Machine/Ops.lean ====
section
/-! DEFINITION. The named operations over the state: the buffer (spec/20_memory.md R51 to R53), the counter
(spec/43_state_machine.md R150), COMPRESS applied to the state (R126), ending a command normally or with an error
(spec/60_exceptions.md R194, R195), and the reset event (spec/70_reset_and_hazards.md R220). -/

namespace Sys2Proof.Machine

/-- The two-bit code of `phase` (R28). -/
def Phase.code : Phase → BitVec 2
  | .idle => 0
  | .fresh => 1
  | .absorbing => 2
  | .finalized => 3

/-- The status byte of an error (R190). -/
def CmdError.code : CmdError → Byte
  | .invalidParameter => 0x01
  | .invalidKey => 0x02
  | .useAfterFinalize => 0x03
  | .noSession => 0x04
  | .illegalCommand => 0x05

/-- A response on the response stream: `status ‖ data` (R96). -/
def Response.bytes : Response → List Byte
  | .ok data => 0x00 :: data
  | .error e => [e.code]

/-- The response stream as bytes, in emission order (R57). -/
def State.responseStream (s : State) : List Byte := s.responses.flatMap Response.bytes

/-! ### The buffer -/

/-- What an unlisted address of `buf` reads as: 0, the value INIT writes everywhere (R151; notes/assumptions/8.md). -/
def Memory.unlisted : Byte := 0

/-- The byte at address `a`. -/
def Memory.read : Memory → Nat → Byte
  | [], _ => Memory.unlisted
  | (k, b) :: m, a => if k = a then b else Memory.read m a

/-- Put one cell in its place, or take it out where the byte is what an unlisted address reads as. -/
def Memory.write : Memory → Nat → Byte → Memory
  | [], a, b => if b = Memory.unlisted then [] else [(a, b)]
  | (k, c) :: m, a, b =>
    if a < k then if b = Memory.unlisted then (k, c) :: m else (a, b) :: (k, c) :: m
    else if a = k then if b = Memory.unlisted then m else (a, b) :: m
    else (k, c) :: Memory.write m a b

/-- The canonical form from address `lo` up: addresses strictly rising, no cell holding what an unlisted address reads as. -/
def Memory.wfFrom : Nat → Memory → Bool
  | _, [] => true
  | lo, (k, b) :: m => decide (lo ≤ k) && decide (b ≠ Memory.unlisted) && Memory.wfFrom (k + 1) m

/-- The canonical form of `buf`. -/
def Memory.wf (m : Memory) : Bool := Memory.wfFrom 0 m

/-- Every cell lies in `buf`'s address space 0 to 255 (R50, R51). -/
def Memory.inRange (m : Memory) : Bool := m.all fun c => decide (c.1 < 256)

/-- `BufRead(i, n)`: the `n` bytes `buf[i..i+n)` in that order (R51). -/
def Memory.bufRead (m : Memory) : Nat → Nat → List Byte
  | _, 0 => []
  | i, n + 1 => m.read i :: Memory.bufRead m (i + 1) n

/-- `BufWrite(i, bytes)`: `buf[i + k] <- bytes[k]`, every other byte unchanged (R52). -/
def Memory.bufWrite : Memory → Nat → List Byte → Memory
  | m, _, [] => m
  | m, i, b :: bs => Memory.bufWrite (m.write i b) (i + 1) bs

/-- `BufRead(0, 128)`, block 0, as the block a COMPRESS takes (R51, R53). -/
def Memory.block0 (m : Memory) : Vector Byte 128 := takeVec 128 (m.bufRead 0 128)

/-! ### The counter and COMPRESS -/

/-- `INC_COUNTER(n)`: the low word, and a carry into the high word when the low word wrapped (R150). -/
def incCounter (n : Nat) (s : State) : State :=
  let lo := s.t0 + BitVec.ofNat 64 n
  let carry : Word := if lo < BitVec.ofNat 64 n then 1 else 0
  { s with t0 := lo, t1 := s.t1 + carry }

/-- `h <- COMPRESS(h, BufRead(0, 128), t, f)`, with its event record (R126, R43). -/
def compressBlock (s : State) : State :=
  let block := s.buf.block0
  let h' := compress s.h block s.t0 s.t1 s.f0 s.f1
  { s with
    h := h'
    events := s.events ++
      [{ hIn := s.h, block := block, t0 := s.t0, t1 := s.t1, f0 := s.f0, f1 := s.f1, hOut := h' }] }

/-! ### Ending a command -/

/-- `respond(OK, data)`: the command's state changes take effect and the response `00 ‖ data` is emitted (R194). -/
def respond (data : List Byte) (s : State) : Host.Outcome State Fault Refusal :=
  .next { s with responses := s.responses ++ [.ok data] }

/-- TAKING AN EXCEPTION, `raise E`: no state changes at all, and the response is the error's status byte alone (R195). Nothing
is saved, no mode changes and there is nothing to return from: the next command runs as if this one had never been sent
(R200). -/
def raise (e : CmdError) (s : State) : Host.Outcome State Fault Refusal :=
  .next { s with responses := s.responses ++ [.error e] }

/-! ### The reset event -/

/-- `buf` after reset event `n`: 256 free bytes (R44). -/
def resetBuf (n : Nat) : Memory :=
  Memory.bufWrite [] 0 ((List.range 256).map (Config.resetBufByte n))

/-- The reset event, with `rest` what the host does after it: phase Idle, the log empty, any partly received packet and any
command in progress gone without a response, every other element unspecified (R220, R221). Responses already emitted are the
host's. -/
def resetEvent (rest : List HostEvent) (s : State) : State where
  phase := .idle
  h := Config.resetH s.resets
  t0 := Config.resetT0 s.resets
  t1 := Config.resetT1 s.resets
  f0 := Config.resetF0 s.resets
  f1 := Config.resetF1 s.resets
  lastNode := Config.resetLastNode s.resets
  buf := resetBuf s.resets
  buflen := Config.resetBuflen s.resets
  events := []
  input := rest
  responses := s.responses
  resets := s.resets + 1

end Sys2Proof.Machine
end

