-- ==== Sys2Proof/Machine/Absorb.lean ====
section
/-! DEFINITION. ABSORB, the buffering loop shared by UPDATE and INIT_KEY (spec/43_state_machine.md R152): a full buffer is
compressed one block at a time, and only once more input is known to follow (R158, R229). -/

namespace Sys2Proof.Machine

/-- `BufWrite(left, bs); buflen <- left + len(bs)` for bytes that fit: "only buffers" (R152). -/
def appendBytes (bs : List Byte) (s : State) (h : s.buflen.val + bs.length ≤ 256) : State :=
  { s with buf := s.buf.bufWrite s.buflen.val bs, buflen := ⟨s.buflen.val + bs.length, by omega⟩ }

/-- `BufWrite(0, BufRead(128, 128)); buflen <- 128`: block 1 onto block 0, block 1 keeping its old bytes (R53, R152). -/
def shiftLeft (s : State) : State :=
  { s with buf := s.buf.bufWrite 0 (s.buf.bufRead 128 128), buflen := 128 }

/-- `BufWrite(left, in[0..fill)); buflen <- 256`: fill the buffer completely (R152). -/
def fillBuffer (bs : List Byte) (s : State) : State :=
  { s with buf := s.buf.bufWrite s.buflen.val (bs.take (256 - s.buflen.val)), buflen := 256 }

/-- One pass of the loop on input that overflows: fill, count the block, compress it, shift (R152). -/
def overflowPass (bs : List Byte) (s : State) : State :=
  shiftLeft (compressBlock (incCounter 128 (fillBuffer bs s)))

/-- The loop of R152 with a bound on its passes; `absorb` gives a bound it never reaches (notes/assumptions/15.md). -/
def absorbLoop : Nat → List Byte → State → State
  | 0, _, s => s
  | n + 1, bs, s =>
    if bs = [] then s
    else if h : s.buflen.val + bs.length ≤ 256 then appendBytes bs s h
    else absorbLoop n (bs.drop (256 - s.buflen.val)) (overflowPass bs s)

/-- `ABSORB(in)` (R152). Each pass but one whose buffer is full takes at least one byte, so `len(in) + 2` passes suffice. -/
def absorb (bs : List Byte) (s : State) : State := absorbLoop (bs.length + 2) bs s

end Sys2Proof.Machine
end

