-- ==== Sys2Proof/Machine/Flags.lean ====
section
/-! DEFINITION. The flags `f[0]`, `f[1]` and `last_node`: every way a command writes them (spec/10_state.md R23, R24, R27). The
core has no arithmetic condition codes. -/

namespace Sys2Proof.Machine

/-- START: `f[0] <- 0; f[1] <- 0; last_node <- 0` (R151). -/
def clearFlags (s : State) : State := { s with f0 := false, f1 := false, lastNode := false }

/-- FINAL: `f[0] <- 1; if last_node = 1 then f[1] <- 1` (R156). -/
def markLast (s : State) : State := { s with f0 := true, f1 := if s.lastNode then true else s.f1 }

end Sys2Proof.Machine
end

