-- ==== Sys2Proof/Machine/Operands.lean ====
section
/-! DEFINITION. The operand forms of the commands and their range checks (spec/30_encoding.md R88, R94;
spec/60_exceptions.md R191, R192). -/

namespace Sys2Proof.Machine

/-- The legal range of `digest_length` and of `outlen`: 1 to 64 (R91, R191). A value outside is refused, never clamped (R210). -/
def lengthLegal (n : Nat) : Bool := decide (1 ≤ n) && decide (n ≤ 64)

/-- The greatest `key_length` (R91, R191). -/
def maxKeyLength : Nat := 64

/-- An optional 16-byte operand: 16 zero bytes when absent (R88). -/
def orZeros (b : Option Bytes16) : Bytes16 := b.getD (Vector.replicate 16 0)

/-- The key staging block `key ‖ 0^(128 - len(key))` of INIT_KEY, a local value (R154, R41). -/
def keyBlock (key : List Byte) : List Byte := key ++ List.replicate (128 - key.length) 0

end Sys2Proof.Machine
end

