-- ==== Sys2Proof/Machine/ParamBlock.lean ====
section
/-! DEFINITION. The Parameter Block (spec/42_parameter_block.md): built and applied inside INIT and INIT_KEY, never stored
(R33, R140). -/

namespace Sys2Proof.Machine

/-- Byte `i` of the packed layout `P[0..64)`, field by field in offset order (R90, R141): digest_length, key_length, fanout 1,
depth 1; leaf_length, node_offset, node_depth, inner_length and the reserved bytes all zero; salt; personal. -/
def paramByte (digestLength keyLength : Nat) (salt personal : Bytes16) (i : Fin 64) : Byte :=
  if i.val = 0 then BitVec.ofNat 8 digestLength
  else if i.val = 1 then BitVec.ofNat 8 keyLength
  else if i.val = 2 then 1
  else if i.val = 3 then 1
  else if i.val < 32 then 0
  else if _h : i.val < 48 then salt[i.val - 32]
  else personal[i.val - 48]

/-- The 64-byte block (R90). -/
def packParams (digestLength keyLength : Nat) (salt personal : Bytes16) : Vector Byte 64 :=
  Vector.ofFn (paramByte digestLength keyLength salt personal)

/-- `PARAM_BUILD(digest_length, key_length, salt, personal)`: validate and pack (R141). -/
def paramBuild (digestLength keyLength : Nat) (salt personal : Bytes16) : Except CmdError (Vector Byte 64) :=
  if digestLength < 1 ∨ digestLength > 64 then .error .invalidParameter
  else if keyLength > maxKeyLength then .error .invalidParameter
  else .ok (packParams digestLength keyLength salt personal)

/-- `PARAM_APPLY(P)`: `h[i] <- IV[i] ^ load64(P[8i..8i+8))` (R143). -/
def paramApply (p : Vector Byte 64) : Vector Word 8 :=
  Vector.ofFn fun i : Fin 8 => IV[i.val] ^^^ lane p i.val (by omega)

end Sys2Proof.Machine
end

