-- ==== Sys2Proof/Machine/Session.lean ====
section
/-! DEFINITION. The commands that start a session: INIT and INIT_KEY (spec/43_state_machine.md R151, R153, R154). -/

namespace Sys2Proof.Machine

/-- The writes of START once the parameter block is built: seed `h`, zero counter, flags, buffer and fill level, and start the
session's event log (R151). -/
def startWith (p : Vector Byte 64) (s : State) : State :=
  { clearFlags { s with h := paramApply p, t0 := 0, t1 := 0 } with buf := [], buflen := 0, events := [] }

/-- `START(digest_length, key_length, salt, personal)`; an error of PARAM_BUILD comes before any write (R151). -/
def start (digestLength keyLength : Nat) (salt personal : Bytes16) (s : State) : Except CmdError State :=
  match paramBuild digestLength keyLength salt personal with
  | .error e => .error e
  | .ok p => .ok (startWith p s)

/-- INIT (R153): accepted in every phase. -/
def execInit (dlen : Byte) (salt personal : Option Bytes16) (s : State) : Host.Outcome State Fault Refusal :=
  if lengthLegal dlen.toNat = false then raise .invalidParameter s
  else
    match start dlen.toNat 0 (orZeros salt) (orZeros personal) s with
    | .error e => raise e s
    | .ok s' => respond [] { s' with phase := .fresh }

/-- INIT_KEY (R154): accepted in every phase; the key block is the first input block of the session. -/
def execInitKey (dlen : Byte) (key : List Byte) (salt personal : Option Bytes16) (s : State) :
    Host.Outcome State Fault Refusal :=
  if lengthLegal dlen.toNat = false then raise .invalidParameter s
  else if key.length > maxKeyLength then raise .invalidParameter s
  else if key.length = 0 then raise .invalidKey s
  else
    match start dlen.toNat key.length (orZeros salt) (orZeros personal) s with
    | .error e => raise e s
    | .ok s' => respond [] { absorb (keyBlock key) s' with phase := .absorbing }

end Sys2Proof.Machine
end

