-- ==== Sys2Proof/Machine/Stream.lean ====
section
/-! DEFINITION. The commands of a running session: UPDATE and FINAL (spec/43_state_machine.md R155, R156). -/

namespace Sys2Proof.Machine

/-- The phase check of UPDATE and FINAL, before any operand check (R198): the error the phase gives, if any. -/
def phaseError : Phase → Option CmdError
  | .idle => some .noSession
  | .finalized => some .useAfterFinalize
  | .fresh => none
  | .absorbing => none

/-- UPDATE (R155). -/
def execUpdate (bytes : List Byte) (s : State) : Host.Outcome State Fault Refusal :=
  match phaseError s.phase with
  | some e => raise e s
  | none => respond [] { absorb bytes s with phase := .absorbing }

/-- FINAL's first `if`: with two blocks buffered, the first is an ordinary block; then `buflen <- buflen - 128` and the tail is
shifted down (R156, spec/90_conflicts.md C2). -/
def compressFirstOfTwo (s : State) : State :=
  if s.buflen.val > 128 then
    let s := compressBlock (incCounter 128 s)
    { s with
      buf := s.buf.bufWrite 0 (s.buf.bufRead 128 (s.buflen.val - 128))
      buflen := ⟨s.buflen.val - 128, by omega⟩ }
  else s

/-- FINAL's last block: count the exact remaining bytes, set the flags, pad with zeros to the end of the buffer, compress
(R156). -/
def compressLast (s : State) : State :=
  let s := markLast (incCounter s.buflen.val s)
  compressBlock { s with buf := s.buf.bufWrite s.buflen.val (List.replicate (256 - s.buflen.val) 0) }

/-- The 64 bytes of the serialized chaining value: `store64(h[0]) ‖ ... ‖ store64(h[7])` (R156). -/
def serialize (h : Vector Word 8) : List Byte := h.toList.flatMap fun w => (store64 w).toList

/-- FINAL (R156). `outlen` is not compared with any earlier length: the state holds none (R35). -/
def execFinal (olen : Byte) (s : State) : Host.Outcome State Fault Refusal :=
  match phaseError s.phase with
  | some e => raise e s
  | none =>
    if lengthLegal olen.toNat = false then raise .invalidParameter s
    else
      let s' := compressLast (compressFirstOfTwo s)
      respond ((serialize s'.h).take olen.toNat) { s' with phase := .finalized }

end Sys2Proof.Machine
end

