-- ==== Sys2Proof/Machine/Dispatch.lean ====
section
/-! DEFINITION. Which meaning each command has: one arm per constructor of `Instr`. -/

namespace Sys2Proof.Machine

def exec (i : Instr) (s : State) : Host.Outcome State Fault Refusal :=
  match i with
  | .init dlen salt personal => Sys2Proof.Machine.execInit dlen salt personal s
  | .initKey dlen key salt personal => Sys2Proof.Machine.execInitKey dlen key salt personal s
  | .update bytes => Sys2Proof.Machine.execUpdate bytes s
  | .final olen => Sys2Proof.Machine.execFinal olen s

end Sys2Proof.Machine
end

