-- ==== Sys2Proof/Machine/Fetch.lean ====
section
/-! DEFINITION. Taking the next packet off the command stream (spec/20_memory.md R56; spec/30_encoding.md R80, R87), and where
a reset lands in it (spec/70_reset_and_hazards.md R220, R226). -/

namespace Sys2Proof.Machine

/-- The outcome of taking some bytes off the host's events. -/
inductive Taken where
  /-- The bytes, and the events after them. -/
  | bytes (bs : List Byte) (rest : List HostEvent)
  /-- A reset came first. -/
  | reset (rest : List HostEvent)
  /-- The events end before the bytes do. -/
  | short
  deriving DecidableEq, Repr

/-- Take `n` bytes; a reset before the last of them drops what was received (R220). -/
def takeBytes : Nat → List HostEvent → Taken
  | 0, es => .bytes [] es
  | _ + 1, [] => .short
  | _ + 1, .reset :: es => .reset es
  | _ + 1, .resetDuringCommand :: es => .reset es
  | n + 1, .byte b :: es =>
    match takeBytes n es with
    | .bytes bs rest => .bytes (b :: bs) rest
    | .reset rest => .reset rest
    | .short => .short

/-- What the core finds on the stream. -/
inductive Fetched where
  /-- A whole packet, and the events after it. -/
  | packet (p : Packet) (rest : List HostEvent)
  /-- A reset before the packet was complete, or during its command; the packet is dropped either way (R220). -/
  | reset (rest : List HostEvent)
  /-- Nothing at all. -/
  | empty
  /-- Part of a packet (R226). -/
  | incomplete
  deriving DecidableEq, Repr

/-- A whole packet was received: its command executes, unless a reset hits it while it does (R220). -/
def packetUnlessReset (p : Packet) : List HostEvent → Fetched
  | .resetDuringCommand :: es => .reset es
  | es => .packet p es

/-- The payload after a command word: `paylen(W)` bytes of it, always (R87). -/
def fetchPayload (w : Word) (es : List HostEvent) : Fetched :=
  match takeBytes (paylen w) es with
  | .bytes pl rest => packetUnlessReset ⟨w, pl⟩ rest
  | .reset rest => .reset rest
  | .short => .incomplete

/-- The next packet: eight bytes of command word, least significant first, then its payload (R80, R81). -/
def fetch (es : List HostEvent) : Fetched :=
  if es = [] then .empty
  else
    match takeBytes 8 es with
    | .bytes w8 rest => fetchPayload (load64 (takeVec 8 w8)) rest
    | .reset rest => .reset rest
    | .short => .incomplete

/-- A packet as the host sends it. -/
def sendPacket (p : Packet) : List HostEvent := p.bytes.map HostEvent.byte

end Sys2Proof.Machine
end

