-- ==== Sys2Proof/Machine/Step.lean ====
section
/-! DEFINITION. One step of the core: one whole command (spec/00_scope.md R13, R15), or one reset event
(spec/70_reset_and_hazards.md R220). -/

namespace Sys2Proof.Machine

/-- The command of a packet already taken off the stream: the decoded command's meaning, or `IllegalCommand` (R92, R93). -/
def runPacket (p : Packet) (s : State) : Host.Outcome State Fault Refusal :=
  match decode p with
  | .instr i => exec i s
  | .illegal _ => raise .illegalCommand s

/-- One step. With no whole packet there is none (R226, spec/93_implementation_defined.md U12). -/
def step (s : State) : Host.Outcome State Fault Refusal :=
  match fetch s.input with
  | .packet p rest => runPacket p { s with input := rest }
  | .reset rest => .next (resetEvent rest s)
  | .empty => .fault .streamEmpty
  | .incomplete => .fault .packetIncomplete

/-- `s` with the packet of the instruction whose bits are `w` put at the front of the command stream, ahead of what the host
does next; a reset aimed at a command now behind it is dropped, so that the next step runs the instruction
(notes/assumptions/17.md). -/
def State.withFetchWord (s : State) (nbits w : Nat) : State :=
  { s with
    input := sendPacket (tablePacket nbits w) ++ s.input.dropWhile (fun e => decide (e = .resetDuringCommand)) }

end Sys2Proof.Machine
end

