-- ==== Sys2Proof/Machine/HostSequences.lean ====
section
/-! DEFINITION. What the host sends: sequences of commands, the pseudo-instructions HASH and KEYED_HASH
(spec/44_host_sequences.md R180, R181), the self-test (R182), and the lines of a program with the raw-word directive (spec/30_encoding.md R98, R99). -/

namespace Sys2Proof.Machine

/-- The commands of `is` executed in order, each to completion (R67). -/
def runCommands : List Instr → State → Host.Outcome State Fault Refusal
  | [], s => .next s
  | i :: is, s =>
    match exec i s with
    | .next t => runCommands is t
    | .fault r => .fault r
    | .refused r => .refused r

/-- The response to the latest command. -/
def lastResponse (s : State) : Option Response := s.responses.getLast?

/-- The commands of `is` by a host that stops at the first error response (R180: "the host must stop there"). -/
def runUntilError : List Instr → State → Host.Outcome State Fault Refusal
  | [], s => .next s
  | i :: is, s =>
    match exec i s with
    | .next t =>
      match lastResponse t with
      | some (.error _) => .next t
      | _ => runUntilError is t
    | .fault r => .fault r
    | .refused r => .refused r

/-- The chunks in which the host sends an input: one, or, where it is longer than the greatest `LEN`, several (R180, R85). Where the
host cuts a longer one the spec leaves open, since the digest is the same (R160): that every chunk but the last has exactly
2^56 - 1 bytes is the model's DESIGN CHOICE (notes/assumptions/25.md). `n` bounds their number; `input.length` is always enough. -/
def hostChunks : Nat → List Byte → List (List Byte)
  | 0, input => [input]
  | n + 1, input =>
    if input.length < 2 ^ 56 then [input]
    else input.take (2 ^ 56 - 1) :: hostChunks n (input.drop (2 ^ 56 - 1))

/-- `HASH <outlen>, <input>` (R180). `outlen` is a byte, as `DLEN` and `OLEN` are; that a greater one is not expanded at all is the
model's DESIGN CHOICE (notes/assumptions/25.md). -/
def hashCommands (outlen : Byte) (input : List Byte) : List Instr :=
  .init outlen none none :: ((hostChunks input.length input).map .update ++ [.final outlen])

/-- `KEYED_HASH <outlen>, key=<key>, <input>` (R181). `outlen` is a byte, as for `hashCommands`. -/
def keyedHashCommands (outlen : Byte) (key input : List Byte) : List Instr :=
  .initKey outlen key none none :: ((hostChunks input.length input).map .update ++ [.final outlen])

/-- One entry of a known-answer table, "`(key, message-prefix-length, expected-digest)`" (R182). -/
structure KnownAnswer where
  key : List Byte
  prefixLength : Nat
  digest : List Byte
  deriving DecidableEq, Repr

/-- The self-test harness of the host: `keyed_hash(message[0..i], key, 64)` gives the expected digest for every entry of the table,
and the first mismatch fails the test (R182, R183). The spec gives neither table nor message: that the caller gives both, and
that a prefix longer than the message is the whole message, is the model's DESIGN CHOICE (notes/assumptions/24.md). -/
def selfTest (message : List Byte) : List KnownAnswer → State → Bool
  | [], _ => true
  | k :: ks, s =>
    match runUntilError (keyedHashCommands 64 k.key (message.take k.prefixLength)) s with
    | .next t => decide (lastResponse t = some (.ok k.digest)) && selfTest message ks t
    | .fault _ => false
    | .refused _ => false

/-- A line of a program (R98, R99). -/
inductive AsmLine where
  /-- One of the four commands. -/
  | command (i : Instr)
  /-- `.word`: a raw command word and raw payload bytes. -/
  | word (w : Word) (payload : List Byte)
  /-- `HASH`. -/
  | hash (outlen : Byte) (input : List Byte)
  /-- `KEYED_HASH`. -/
  | keyedHash (outlen : Byte) (key input : List Byte)
  deriving DecidableEq, Repr

/-- The packets a line stands for, all of them: a HASH or KEYED_HASH line is its whole expansion, also where its first command will
fail (DESIGN CHOICE, notes/assumptions/23.md; the host that stops there is `runUntilError`). A KEYED_HASH whose key `KLEN`
cannot hold sends none: the host reports `InvalidParameter` itself (R181). -/
def AsmLine.packets : AsmLine → List Packet
  | .command i => [encode i]
  | .word w payload => [⟨w, payload⟩]
  | .hash outlen input => (hashCommands outlen input).map encode
  | .keyedHash outlen key input =>
    if key.length < 256 then (keyedHashCommands outlen key input).map encode else []

/-- A program as the host puts it on the command stream (R56, R81, R98), in advance: what is sent does not depend on the responses,
so behind an INIT that fails the UPDATE and FINAL of its HASH line follow all the same (DESIGN CHOICE,
notes/assumptions/23.md; R180 has the host stop, as `runUntilError` does). -/
def programEvents (lines : List AsmLine) : List HostEvent :=
  lines.flatMap fun line => line.packets.flatMap sendPacket

end Sys2Proof.Machine
end

