-- ==== Sys2Proof/Safety.lean ====
section
/-! DEFINITION. The terms in which claims about the machine are made: the counter as one number, the live part of the buffer,
the invariant of spec/10_state.md R36, agreement on everything that can matter (R40, R44, R42), the error a packet must be
answered with (spec/60_exceptions.md R198), the compression events a session must emit (spec/43_state_machine.md R159), and
what a clean run is (R200). -/

namespace Sys2Proof.Machine

/-- `T = t[0] + 2^64 * t[1]` (R21). -/
def State.T (s : State) : Nat := s.t0.toNat + 2 ^ 64 * s.t1.toNat

/-- The counter a recorded compression saw. -/
def CompressEvent.T (e : CompressEvent) : Nat := e.t0.toNat + 2 ^ 64 * e.t1.toNat

/-- A session is open: UPDATE and FINAL are accepted (R28). -/
abbrev Phase.live (p : Phase) : Prop := p = .fresh ∨ p = .absorbing

/-- "The unprocessed input is exactly `buf[0..buflen)`, oldest byte first" (R26). -/
def State.pending (s : State) : List Byte := s.buf.bufRead 0 s.buflen.val

/-- The invariant of every step: the canonical form of `buf`; for an open session R36 (c), (d), (e) with R22 in terms of the event
log, and R24 and R27; an empty log in Idle (R44). R36 (a) is the type of `buflen`. Nothing is said of the fields FINAL leaves
(R42). -/
structure State.Inv (s : State) : Prop where
  bufWf : s.buf.wf = true
  bufInRange : s.buf.inRange = true
  idleLog : s.phase = .idle → s.events = []
  nodeFlags : s.phase.live → s.f1 = false ∧ s.lastNode = false
  noLastFlag : s.phase.live → s.f0 = false
  counter : s.phase.live → s.T = 128 * s.events.length % 2 ^ 128
  behind : s.phase.live → s.events ≠ [] → 129 ≤ s.buflen.val
  freshEmpty : s.phase = .fresh → s.buflen.val = 0

/-- Agreement on everything that can matter: the streams, the phase and the event log, and, while a session is open, every
field but the dead bytes of `buf` (R40). In Idle and Finalized no other field is readable (R44, R42). -/
structure State.Agree (s t : State) : Prop where
  phase : s.phase = t.phase
  input : s.input = t.input
  responses : s.responses = t.responses
  events : s.events = t.events
  resets : s.resets = t.resets
  hash : s.phase.live → s.h = t.h ∧ s.t0 = t.t0 ∧ s.t1 = t.t1 ∧ s.f0 = t.f0 ∧ s.f1 = t.f1 ∧ s.lastNode = t.lastNode
  fill : s.phase.live → s.buflen = t.buflen
  live : s.phase.live → ∀ a, a < s.buflen.val → s.buf.read a = t.buf.read a

/-- Two step outcomes agree: both go on, to states that agree, or both stop for the same reason. -/
def AgreeOutcome : Host.Outcome State Fault Refusal → Host.Outcome State Fault Refusal → Prop
  | .next s, .next t => s.Agree t
  | .fault a, .fault b => a = b
  | .refused a, .refused b => a = b
  | _, _ => False

/-- The error a packet must be answered with in a phase, in the order of R198, read from the bits of its word: (1) decode,
(2) the phase check of UPDATE and FINAL, (3) the operand checks. -/
def expectedError (w : Word) (phase : Phase) : Option CmdError :=
  if opc w = 0x01 then
    if w &&& 0x0000FFFFFFFFFFFC ≠ 0 then some .illegalCommand
    else if lengthField w = 0 ∨ 64 < (lengthField w).toNat then some .invalidParameter
    else none
  else if opc w = 0x02 then
    if w &&& 0x000000FFFFFFFFFC ≠ 0 then some .illegalCommand
    else if lengthField w = 0 ∨ 64 < (lengthField w).toNat then some .invalidParameter
    else if 64 < (klen w).toNat then some .invalidParameter
    else if klen w = 0 then some .invalidKey
    else none
  else if opc w = 0x03 then
    if phase = .idle then some .noSession
    else if phase = .finalized then some .useAfterFinalize
    else none
  else if opc w = 0x04 then
    if w &&& 0x0000FFFFFFFFFFFF ≠ 0 then some .illegalCommand
    else if phase = .idle then some .noSession
    else if phase = .finalized then some .useAfterFinalize
    else if lengthField w = 0 ∨ 64 < (lengthField w).toNat then some .invalidParameter
    else none
  else some .illegalCommand

/-- A packet is whole: its payload has the length its word determines (R80, R87). -/
abbrev wholePacket (p : Packet) : Prop := p.payload.length = paylen p.word

/-- The indices of G number `i` of a round: four columns, then four diagonals (R124). -/
def mixIndices : Fin 8 → Fin 16 × Fin 16 × Fin 16 × Fin 16
  | 0 => (0, 4, 8, 12)
  | 1 => (1, 5, 9, 13)
  | 2 => (2, 6, 10, 14)
  | 3 => (3, 7, 11, 15)
  | 4 => (0, 5, 10, 15)
  | 5 => (1, 6, 11, 12)
  | 6 => (2, 7, 8, 13)
  | 7 => (3, 4, 9, 14)

/-- G number `i` of a round with SIGMA row `s`: `x = m[s[2i]]`, `y = m[s[2i+1]]` (R124). -/
def mixNumber (m : Words16) (s : Vector (Fin 16) 16) (v : Words16) (i : Fin 8) : Words16 :=
  let (a, b, c, d) := mixIndices i
  mixG v a b c d m[s[2 * i.val]] m[s[2 * i.val + 1]]

/-- Compressions done once `n` bytes of a session are absorbed and it goes on: `C(N) = max(0, ceil(N / 128) - 2)` (R37). -/
def compressionsBefore (n : Nat) : Nat := (n + 127) / 128 - 2

/-- Compressions of a whole session of `n` bytes: `max(1, ceil(N / 128))` (R37). -/
def compressionsTotal (n : Nat) : Nat := max 1 ((n + 127) / 128)

/-- Event number `j` (from 0) of a session of total input `x` whose chaining value is `h` then (R159): the block
`x[128j..128j+128)` zero-padded, with T = 128(j + 1) and clear flags, but for the last one with T = N and `f[0]` set. -/
def sessionEvent (x : List Byte) (j : Nat) (h : Vector Word 8) : CompressEvent :=
  let last : Bool := decide (j + 1 = compressionsTotal x.length)
  let n := if last then x.length else 128 * (j + 1)
  let block := takeVec 128 (x.drop (128 * j))
  { hIn := h, block := block, t0 := BitVec.ofNat 64 n, t1 := BitVec.ofNat 64 (n / 2 ^ 64), f0 := last, f1 := false
    hOut := compress h block (BitVec.ofNat 64 n) (BitVec.ofNat 64 (n / 2 ^ 64)) last false }

/-- `n` events of a session from event `j` on. -/
def sessionEventsFrom (x : List Byte) : Nat → Nat → Vector Word 8 → List CompressEvent
  | 0, _, _ => []
  | n + 1, j, h => sessionEvent x j h :: sessionEventsFrom x n (j + 1) (sessionEvent x j h).hOut

/-- All compression events of a session seeded with `h` on the total input `x` (R159). -/
def sessionEvents (h : Vector Word 8) (x : List Byte) : List CompressEvent :=
  sessionEventsFrom x (compressionsTotal x.length) 0 h

/-- The chaining value the last event of a session leaves. -/
def sessionResult (h : Vector Word 8) (x : List Byte) : Vector Word 8 :=
  ((sessionEvents h x).getLast?.map CompressEvent.hOut).getD h

/-- The chaining value INIT or INIT_KEY seeds (R141, R143). -/
def seed (digestLength keyLength : Nat) (salt personal : Option Bytes16) : Vector Word 8 :=
  paramApply (packParams digestLength keyLength (orZeros salt) (orZeros personal))

/-- The words INIT and INIT_KEY leave in `h`, one by one (R144). -/
structure SeedWords (h : Vector Word 8) (digestLength keyLength : Nat) (salt personal : Bytes16) : Prop where
  word0 : h[0] = IV[0] ^^^ BitVec.ofNat 64 (0x01010000 + 256 * keyLength + digestLength)
  word1 : h[1] = IV[1]
  word2 : h[2] = IV[2]
  word3 : h[3] = IV[3]
  word4 : h[4] = IV[4] ^^^ lane salt 0 (by decide)
  word5 : h[5] = IV[5] ^^^ lane salt 1 (by decide)
  word6 : h[6] = IV[6] ^^^ lane personal 0 (by decide)
  word7 : h[7] = IV[7] ^^^ lane personal 1 (by decide)

/-- The phase a command that succeeds sets, whatever it was before (R29). -/
def phaseAfter : Instr → Phase
  | .init _ _ _ => .fresh
  | .initKey _ _ _ _ => .absorbing
  | .update _ => .absorbing
  | .final _ => .finalized

/-- The recorded result is COMPRESS of the recorded operands (R43, R127). -/
def CompressEvent.valid (e : CompressEvent) : Prop := e.hOut = compress e.hIn e.block e.t0 e.t1 e.f0 e.f1

/-- A length operand in its legal range (R91, R191). -/
abbrev legalLength (n : Byte) : Prop := 1 ≤ n.toNat ∧ n.toNat ≤ 64

/-- A key that INIT_KEY accepts (R154). -/
abbrev legalKey (key : List Byte) : Prop := 1 ≤ key.length ∧ key.length ≤ 64

/-- `s` with one more response: what a command that fails leaves (R195). -/
def State.answered (s : State) (r : Response) : State := { s with responses := s.responses ++ [r] }

/-- The host does not assert reset during the command whose packet comes just before `rest` (R220). -/
abbrev noResetDuring (rest : List HostEvent) : Prop := rest.head? ≠ some .resetDuringCommand

/-- A clean run: no command of it was answered with an error. The mark is kept outside the state (R200). -/
def State.clean (s : State) : Prop := ∀ r, r ∈ s.responses → ∃ d, r = .ok d

end Sys2Proof.Machine
end

