-- ==== Sys2Proof/Certificates/Slice0/Obligations.lean ====
section
/-! DEFINITION. The statements for the provers. Each is about the machine, none about a program. Where a rule of the spec says
that no claim may depend on some bytes or fields (the dead bytes of `buf`, R40; the state FINAL leaves, R42), the statements
make no claim on them. Statements with hypotheses have a witness in Sys2Proof/Tests/Slice0.lean. -/

open Sys2Proof Sys2Proof.Machine

/-! ### Word codec -/

/-- R112 (which the spec marks "derived: from rule R110 and rule R111"): the two codec operations are mutually inverse. -/
def Obligations.CodecInverse : Prop :=
  (∀ b : Vector Byte 8, store64 (load64 b) = b) ∧ ∀ w : Word, load64 (store64 w) = w

/-- R110: bits `8i+7 : 8i` of the loaded word are byte `i`. -/
def Obligations.LoadReadsLittleEndian : Prop :=
  ∀ (b : Vector Byte 8) (i : Fin 8), (load64 b).extractLsb' (8 * i.val) 8 = b[i]

/-! ### Compression core -/

/-- R123: the eight statements of G in order, and nothing but `v[a]`, `v[b]`, `v[c]`, `v[d]` changes. The schedule is what
the spec marks "from general knowledge, not in source" (notes/assumptions/10.md). -/
def Obligations.MixGRunsItsEightStatements : Prop :=
  ∀ (v : Words16) (a b c d : Fin 16) (x y : Word), [a, b, c, d].Nodup →
    let a1 := v[a] + v[b] + x
    let d1 := rotr (v[d] ^^^ a1) 32
    let c1 := v[c] + d1
    let b1 := rotr (v[b] ^^^ c1) 24
    let a2 := a1 + b1 + y
    let d2 := rotr (d1 ^^^ a2) 16
    let c2 := c1 + d2
    let b2 := rotr (b1 ^^^ c2) 63
    let r := mixG v a b c d x y
    r[a] = a2 ∧ r[b] = b2 ∧ r[c] = c2 ∧ r[d] = d2 ∧ ∀ k : Fin 16, k ∉ [a, b, c, d] → r[k] = v[k]

/-- R128 (which the spec marks "derived: from rule R123 and rule R124"; the index tuples: notes/assumptions/10.md): the four
column mixes of a round may run in any order with the same result, and so may the four diagonal mixes. -/
def Obligations.HalfRoundMixesInAnyOrder : Prop :=
  ∀ (m : Words16) (s : Vector (Fin 16) 16) (v : Words16) (order : List (Fin 8)),
    (order.Perm [0, 1, 2, 3] → order.foldl (mixNumber m s) v = columnMixes v m s) ∧
    (order.Perm [4, 5, 6, 7] → order.foldl (mixNumber m s) v = diagonalMixes v m s)

/-- R126, the paragraph after the pseudocode: the work vector before the rounds. -/
def Obligations.WorkVectorBeforeRounds : Prop :=
  ∀ (h : Vector Word 8) (t0 t1 : Word) (f0 f1 : Bool),
    let w := workVector h t0 t1 f0 f1
    (∀ i : Fin 8, w[i.val] = h[i]) ∧ w[8] = IV[0] ∧ w[9] = IV[1] ∧ w[10] = IV[2] ∧ w[11] = IV[3] ∧
    w[12] = IV[4] ^^^ t0 ∧ w[13] = IV[5] ^^^ t1 ∧
    w[14] = (if f0 then ~~~IV[6] else IV[6]) ∧ w[15] = (if f1 then ~~~IV[7] else IV[7])

/-! ### Parameter block -/

/-- R90, R141, R142: lengths out of range are refused, never clamped; otherwise every byte of the block. -/
def Obligations.ParamBlockBytes : Prop :=
  ∀ (digestLength keyLength : Nat) (salt personal : Bytes16),
    (digestLength < 1 ∨ 64 < digestLength ∨ 64 < keyLength →
      paramBuild digestLength keyLength salt personal = .error .invalidParameter) ∧
    (1 ≤ digestLength → digestLength ≤ 64 → keyLength ≤ 64 →
      ∃ p : Vector Byte 64, paramBuild digestLength keyLength salt personal = .ok p ∧
        p[0].toNat = digestLength ∧ p[1].toNat = keyLength ∧ p[2] = 1 ∧ p[3] = 1 ∧
        (∀ i : Fin 28, p[4 + i.val] = 0) ∧ (∀ i : Fin 16, p[32 + i.val] = salt[i]) ∧
        ∀ i : Fin 16, p[48 + i.val] = personal[i])

/-- R144 (which the spec marks "derived: from rule R141, rule R143 and rule R90"): the chaining value after a successful
INIT or INIT_KEY, word by word, from any state. -/
def Obligations.SessionStartSeedsEveryWord : Prop :=
  ∀ (s : State) (dlen : Byte) (key : List Byte) (salt personal : Option Bytes16), legalLength dlen →
    (∃ t, exec (.init dlen salt personal) s = .next t ∧
      SeedWords t.h dlen.toNat 0 (orZeros salt) (orZeros personal)) ∧
    (legalKey key → ∃ t, exec (.initKey dlen key salt personal) s = .next t ∧
      SeedWords t.h dlen.toNat key.length (orZeros salt) (orZeros personal))

/-- R145: the digest length (and the key length) enters `h[0]`: different lengths seed different chaining values. -/
def Obligations.LengthsSeparateSeeds : Prop :=
  ∀ (d d' k k' : Nat) (salt salt' personal personal' : Option Bytes16),
    1 ≤ d → d ≤ 64 → 1 ≤ d' → d' ≤ 64 → k ≤ 64 → k' ≤ 64 → (d ≠ d' ∨ k ≠ k') →
    (seed d k salt personal)[0] ≠ (seed d' k' salt' personal')[0]

/-! ### Counter and buffer -/

/-- R150: `T <- (T + n) mod 2^128`; `n = 0` changes nothing; `t[1]` changes only when `t[0]` wraps; nothing else changes. -/
def Obligations.CounterAddsModulo : Prop :=
  ∀ (n : Nat) (s : State), n < 2 ^ 64 →
    (incCounter n s).T = (s.T + n) % 2 ^ 128 ∧
    (n = 0 → incCounter n s = s) ∧
    ((incCounter n s).t1 ≠ s.t1 → 2 ^ 64 ≤ s.t0.toNat + n) ∧
    incCounter n s = { s with t0 := (incCounter n s).t0, t1 := (incCounter n s).t1 }

/-- R51, R52: BufWrite puts each byte in its place and leaves every other byte alone; BufRead returns the bytes in order.
The memory is in its canonical form, an invariant of every step (`StepKeepsInvariant`). -/
def Obligations.BufferReadsWhatWasWritten : Prop :=
  ∀ (m : Memory) (i : Nat) (bs : List Byte), m.wf = true → i + bs.length ≤ 256 →
    (∀ a, (m.bufWrite i bs).read a = if i ≤ a ∧ a < i + bs.length then bs.getD (a - i) 0 else m.read a) ∧
    ∀ j n, j + n ≤ 256 → (m.bufRead j n).length = n ∧ ∀ k, k < n → (m.bufRead j n)[k]? = some (m.read (j + k))

/-! ### The four commands -/

/-- R151, R153: INIT, in every phase: the whole next state but for the bytes of `buf`, all of them dead (R40: no claim); or
`InvalidParameter` with no state change. -/
def Obligations.InitResult : Prop :=
  ∀ (s : State) (dlen : Byte) (salt personal : Option Bytes16),
    (legalLength dlen → ∃ t, exec (.init dlen salt personal) s = .next t ∧
      t.phase = .fresh ∧ t.h = seed dlen.toNat 0 salt personal ∧ t.t0 = 0 ∧ t.t1 = 0 ∧ t.f0 = false ∧ t.f1 = false ∧
      t.lastNode = false ∧ t.buflen.val = 0 ∧ t.events = [] ∧ t.buf.wf = true ∧
      t.input = s.input ∧ t.responses = s.responses ++ [.ok []] ∧ t.resets = s.resets) ∧
    (¬ legalLength dlen → exec (.init dlen salt personal) s = .next (s.answered (.error .invalidParameter)))

/-- R154: INIT_KEY, in every phase: the next state (no compression has happened, and block 0 is the zero-padded key), or its
errors in their order with no state change. -/
def Obligations.InitKeyResult : Prop :=
  ∀ (s : State) (dlen : Byte) (key : List Byte) (salt personal : Option Bytes16),
    (legalLength dlen → legalKey key → ∃ t, exec (.initKey dlen key salt personal) s = .next t ∧
      t.phase = .absorbing ∧ t.h = seed dlen.toNat key.length salt personal ∧ t.t0 = 0 ∧ t.t1 = 0 ∧ t.f0 = false ∧
      t.f1 = false ∧ t.lastNode = false ∧ t.buflen.val = 128 ∧ t.pending = key ++ List.replicate (128 - key.length) 0 ∧
      t.events = [] ∧ t.input = s.input ∧ t.responses = s.responses ++ [.ok []] ∧ t.resets = s.resets) ∧
    (¬ legalLength dlen →
      exec (.initKey dlen key salt personal) s = .next (s.answered (.error .invalidParameter))) ∧
    (legalLength dlen → 64 < key.length →
      exec (.initKey dlen key salt personal) s = .next (s.answered (.error .invalidParameter))) ∧
    (legalLength dlen → key.length = 0 →
      exec (.initKey dlen key salt personal) s = .next (s.answered (.error .invalidKey)))

/-- R155, R152, the case that fits: UPDATE only buffers. Its frame: the stored bytes are `buf[buflen..buflen+len)`, every
pending byte reads as before, and only `buf`, `buflen` and `phase` change. Bytes above are dead (R40): no claim. -/
def Obligations.UpdateThatFitsOnlyBuffers : Prop :=
  ∀ (s : State) (bytes : List Byte), s.phase.live → s.buf.wf = true → s.buflen.val + bytes.length ≤ 256 →
    ∃ t, exec (.update bytes) s = .next t ∧
      t = { s with phase := .absorbing, buf := t.buf, buflen := t.buflen, responses := s.responses ++ [.ok []] } ∧
      t.buflen.val = s.buflen.val + bytes.length ∧
      (∀ a, a < s.buflen.val → t.buf.read a = s.buf.read a) ∧
      ∀ k, k < bytes.length → t.buf.read (s.buflen.val + k) = bytes.getD k 0

/-- R152, the case that overflows: UPDATE fills the buffer, counts and compresses block 0 with clear or kept flags, shifts,
and goes on with the rest of its input as an UPDATE of the state `u` would. -/
def Obligations.UpdateThatOverflowsCompresses : Prop :=
  ∀ (s : State) (bytes : List Byte), s.phase.live → s.buf.wf = true → 256 < s.buflen.val + bytes.length →
    ∃ u e, exec (.update bytes) s = exec (.update (bytes.drop (256 - s.buflen.val))) u ∧
      u = { s with h := e.hOut, t0 := e.t0, t1 := e.t1, buf := u.buf, buflen := 128, events := s.events ++ [e] } ∧
      u.buf.wf = true ∧ u.pending = (s.pending ++ bytes.take (256 - s.buflen.val)).drop 128 ∧
      e.hIn = s.h ∧ e.block = takeVec 128 (s.pending ++ bytes) ∧ e.T = (s.T + 128) % 2 ^ 128 ∧
      e.f0 = s.f0 ∧ e.f1 = s.f1 ∧ e.valid

/-- R155 with the count of R37: UPDATE in an open session, for input of any length: how many compressions, the counter, the
fill level and the pending bytes after it, and its frame. -/
def Obligations.UpdateResult : Prop :=
  ∀ (s : State) (bytes : List Byte), s.phase.live → s.buf.wf = true →
    let n := s.buflen.val + bytes.length
    let k := compressionsBefore n
    ∃ t, exec (.update bytes) s = .next t ∧ t.phase = .absorbing ∧
      t.events.length = s.events.length + k ∧ s.events <+: t.events ∧ t.T = (s.T + 128 * k) % 2 ^ 128 ∧
      t.buflen.val = n - 128 * k ∧ t.pending = (s.pending ++ bytes).drop (128 * k) ∧
      (k = 0 → t.h = s.h) ∧ t.f0 = s.f0 ∧ t.f1 = s.f1 ∧ t.lastNode = s.lastNode ∧ t.buf.wf = true ∧
      t.input = s.input ∧ t.responses = s.responses ++ [.ok []] ∧ t.resets = s.resets

/-- R156, one block or less buffered: one compression, of the pending bytes zero-padded, with the exact byte count and
`f[0]` set, and the digest. The consumed state's other fields are not claimed (R42). -/
def Obligations.FinalOfOneBlock : Prop :=
  ∀ (s : State) (olen : Byte), s.phase.live → s.buf.wf = true → legalLength olen → s.buflen.val ≤ 128 →
    ∃ t e, exec (.final olen) s = .next t ∧ t.phase = .finalized ∧ t.events = s.events ++ [e] ∧
      e.hIn = s.h ∧ e.block = takeVec 128 s.pending ∧ e.T = (s.T + s.buflen.val) % 2 ^ 128 ∧
      e.f0 = true ∧ e.f1 = (s.f1 || s.lastNode) ∧ e.valid ∧
      t.responses = s.responses ++ [.ok ((serialize e.hOut).take olen.toNat)] ∧
      t.lastNode = s.lastNode ∧ t.input = s.input ∧ t.resets = s.resets

/-- R156, two blocks buffered: first an ordinary compression of block 0, then the last block as above. -/
def Obligations.FinalOfTwoBlocks : Prop :=
  ∀ (s : State) (olen : Byte), s.phase.live → s.buf.wf = true → legalLength olen → 128 < s.buflen.val →
    ∃ t e e', exec (.final olen) s = .next t ∧ t.phase = .finalized ∧ t.events = s.events ++ [e, e'] ∧
      e.hIn = s.h ∧ e.block = takeVec 128 s.pending ∧ e.T = (s.T + 128) % 2 ^ 128 ∧
      e.f0 = s.f0 ∧ e.f1 = s.f1 ∧ e.valid ∧
      e'.hIn = e.hOut ∧ e'.block = takeVec 128 (s.pending.drop 128) ∧ e'.T = (s.T + s.buflen.val) % 2 ^ 128 ∧
      e'.f0 = true ∧ e'.f1 = (s.f1 || s.lastNode) ∧ e'.valid ∧
      t.responses = s.responses ++ [.ok ((serialize e'.hOut).take olen.toNat)] ∧
      t.lastNode = s.lastNode ∧ t.input = s.input ∧ t.resets = s.resets

/-- R156: digest byte `k` is bits `8(k mod 8)+7 : 8(k mod 8)` of `h[k div 8]`, and there are 64 of them. -/
def Obligations.DigestBytes : Prop :=
  ∀ h : Vector Word 8, (serialize h).length = 64 ∧
    ∀ k : Fin 64, (serialize h)[k.val]? = some ((h[k.val / 8]'(by omega)).extractLsb' (8 * (k.val % 8)) 8)

/-! ### Errors -/

/-- R198: the error a whole packet is answered with, in the order of the rule, and OK when there is none. -/
def Obligations.ErrorPriority : Prop :=
  ∀ (p : Packet) (s : State), wholePacket p →
    match expectedError p.word s.phase with
    | some e => runPacket p s = .next (s.answered (.error e))
    | none => ∃ t d, runPacket p s = .next t ∧ t.responses = s.responses ++ [.ok d]

/-- R195: a command answered with an error has consumed its packet and changed nothing else. -/
def Obligations.ErrorsChangeNothing : Prop :=
  ∀ (s t : State) (p : Packet) (rest : List HostEvent) (e : CmdError),
    fetch s.input = .packet p rest → step s = .next t → t.responses = s.responses ++ [.error e] →
    t = { s with input := rest, responses := s.responses ++ [.error e] }

/-- R57, R230: every command runs to completion from every state and is answered exactly once; it takes nothing more from
the stream and no reset. -/
def Obligations.EveryCommandIsAnsweredOnce : Prop :=
  ∀ (i : Instr) (s : State), ∃ t r, exec i s = .next t ∧ t.responses = s.responses ++ [r] ∧
    t.input = s.input ∧ t.resets = s.resets

/-- R96: the data of a response is empty except for a successful FINAL, where it is the `OLEN` digest bytes: the first `OLEN`
bytes of what the session's last compression left, serialized. -/
def Obligations.OnlyFinalReturnsData : Prop :=
  ∀ (i : Instr) (s t : State) (r : Response), exec i s = .next t → t.responses = s.responses ++ [r] →
    (∀ e, r = .error e → r.bytes = [e.code]) ∧
    (∀ d, r = .ok d → r.bytes = 0x00 :: d ∧
      (∀ olen, i = .final olen → d.length = olen.toNat ∧
        ∃ e, t.events.getLast? = some e ∧ d = (serialize e.hOut).take olen.toNat) ∧
      ((∀ olen, i ≠ .final olen) → d = []))

/-- R29: the phase after a command, for every command, phase and outcome, and which commands Idle and Finalized refuse. -/
def Obligations.PhaseTransitions : Prop :=
  ∀ (i : Instr) (s t : State), exec i s = .next t →
    (∀ e, t.responses = s.responses ++ [.error e] → t.phase = s.phase) ∧
    (∀ d, t.responses = s.responses ++ [.ok d] → t.phase = phaseAfter i) ∧
    ((∃ bytes, i = .update bytes) ∨ (∃ olen, i = .final olen) →
      (s.phase = .idle → t.responses = s.responses ++ [.error .noSession]) ∧
      (s.phase = .finalized → t.responses = s.responses ++ [.error .useAfterFinalize]))

/-- R193: UPDATE and FINAL on a finalized state are refused, return no data and change nothing, whatever their operands;
only INIT or INIT_KEY leaves Finalized. -/
def Obligations.UseAfterFinalizeIsRefused : Prop :=
  ∀ s : State, s.phase = .finalized →
    (∀ bytes, exec (.update bytes) s = .next (s.answered (.error .useAfterFinalize))) ∧
    (∀ olen, exec (.final olen) s = .next (s.answered (.error .useAfterFinalize))) ∧
    ∀ i t, exec i s = .next t → t.phase ≠ .finalized →
      (∃ dlen salt personal, i = .init dlen salt personal) ∨ ∃ dlen key salt personal, i = .initKey dlen key salt personal

/-- R196: UPDATE and FINAL before any session are refused, whatever their operands. -/
def Obligations.NoSessionIsRefused : Prop :=
  ∀ s : State, s.phase = .idle →
    (∀ bytes, exec (.update bytes) s = .next (s.answered (.error .noSession))) ∧
    ∀ olen, exec (.final olen) s = .next (s.answered (.error .noSession))

/-- R190: the six status bytes. -/
def Obligations.StatusBytes : Prop :=
  (∀ d, (Response.ok d).bytes = 0x00 :: d) ∧ CmdError.invalidParameter.code = 0x01 ∧ CmdError.invalidKey.code = 0x02 ∧
  CmdError.useAfterFinalize.code = 0x03 ∧ CmdError.noSession.code = 0x04 ∧ CmdError.illegalCommand.code = 0x05 ∧
  ∀ e : CmdError, (Response.error e).bytes = [e.code]

/-! ### What cannot matter -/

/-- R151: nothing of an earlier session survives a successful INIT or INIT_KEY: everything that can matter in the next state
is a function of the operands and the host's streams alone. -/
def Obligations.NewSessionForgetsTheOld : Prop :=
  ∀ (s s' : State) (dlen : Byte) (key : List Byte) (salt personal : Option Bytes16), legalLength dlen →
    s.input = s'.input → s.responses = s'.responses → s.resets = s'.resets →
    AgreeOutcome (exec (.init dlen salt personal) s) (exec (.init dlen salt personal) s') ∧
    (legalKey key → AgreeOutcome (exec (.initKey dlen key salt personal) s) (exec (.initKey dlen key salt personal) s'))

/-- R40 (which the spec marks "derived: from rule R152 and rule R156"), with R44 and R42: no byte of `buf` at or above
`buflen`, and no field in Idle or Finalized, ever matters: states that agree on the rest step to states that agree on the
rest, with the same responses and the same event log. -/
def Obligations.DeadStateNeverMatters : Prop :=
  ∀ s t : State, s.buf.wf = true → t.buf.wf = true → s.Agree t → AgreeOutcome (step s) (step t)

/-- R28: every command behaves the same in Fresh and Absorbing: the same response, and, when it succeeds, the same state (but
for what cannot matter, R40, R42); a command that fails keeps the phase it found, and the states differ in it alone. -/
def Obligations.FreshAndAbsorbingBehaveAlike : Prop :=
  ∀ (i : Instr) (s : State), s.phase = .fresh →
    ∃ t t' r, exec i s = .next t ∧ exec i { s with phase := .absorbing } = .next t' ∧
      t.responses = s.responses ++ [r] ∧ t'.responses = s.responses ++ [r] ∧
      (∀ d, r = .ok d → State.Agree t' t) ∧
      ∀ e, r = .error e → t.phase = .fresh ∧ State.Agree t' { t with phase := .absorbing }

/-! ### Steps and streams -/

/-- R80, R87, R92, R93: with a whole packet at the front of the stream, a step consumes exactly it and runs the decoded
command, or answers `IllegalCommand`. -/
def Obligations.StepRunsDecodedPacket : Prop :=
  ∀ (s : State) (p : Packet) (rest : List HostEvent), wholePacket p → noResetDuring rest →
    s.input = sendPacket p ++ rest →
    (∀ i, decode p = .instr i → step s = exec i { s with input := rest }) ∧
    ∀ why, decode p = .illegal why →
      step s = .next { s with input := rest, responses := s.responses ++ [.error .illegalCommand] }

/-- R80 to R89: the packet the encoder makes of a well-formed command runs that command. -/
def Obligations.StepRunsEncodedCommand : Prop :=
  ∀ (s : State) (i : Instr) (rest : List HostEvent), i.wf = true → noResetDuring rest →
    s.input = sendPacket (encode i) ++ rest → step s = exec i { s with input := rest }

/-- R67: a stream of packets runs as the commands one after the other, each to completion, in stream order. -/
def Obligations.StreamRunsCommandsInOrder : Prop :=
  ∀ (s : State) (is : List Instr) (rest : List HostEvent), (∀ i, i ∈ is → i.wf = true) → noResetDuring rest →
    s.input = programEvents (is.map AsmLine.command) ++ rest →
    core.run is.length s = runCommands is { s with input := rest }

/-- R220, R221: where a reset lands. In a partly received packet (or between packets) the bytes received are dropped; during
a command the command is abandoned without a response. Phase Idle, the log empty; every other element is unspecified: no
claim. How a reset is written into the stream is the model's choice (notes/assumptions/3.md). -/
def Obligations.ResetLeavesIdle : Prop :=
  ∀ (s : State) (rest : List HostEvent),
    ((∃ bs : List Byte, framePacket bs = none ∧
        (s.input = bs.map HostEvent.byte ++ .reset :: rest ∨
          s.input = bs.map HostEvent.byte ++ .resetDuringCommand :: rest)) ∨
      (∃ p, wholePacket p ∧ s.input = sendPacket p ++ .resetDuringCommand :: rest)) →
    ∃ t, step s = .next t ∧ t.phase = .idle ∧ t.events = [] ∧ t.input = rest ∧ t.responses = s.responses

/-- R226: with a packet incomplete the core waits: there is no step. That the two waits are named `streamEmpty` and
`packetIncomplete` is the model's choice (notes/assumptions/6.md). -/
def Obligations.IncompletePacketWaits : Prop :=
  ∀ (s : State) (bs : List Byte), framePacket bs = none → s.input = bs.map HostEvent.byte →
    step s = .fault (if bs = [] then .streamEmpty else .packetIncomplete)

/-- The host's probe: the instruction that `decodeTableWord` reads is the one the next step runs (notes/assumptions/17.md).
-/
def Obligations.FetchWordRuns : Prop :=
  ∀ (s : State) (nbits w : Nat) (i : Instr), decodeTableWord nbits w = some i →
    ∃ rest, step (s.withFetchWord nbits w) = exec i { s with input := rest } ∧ noResetDuring rest ∧ rest <:+ s.input

/-! ### Encoding -/

/-- R80 to R89, R95: decoding the packet of a well-formed command gives it back, with every operand, and leaves the rest of
the stream. -/
def Obligations.DecodeEncode : Prop :=
  ∀ (i : Instr) (rest : List Byte), i.wf = true → decodeBytes ((encode i).bytes ++ rest) = .packet (.instr i) rest

/-- R83 to R89: every whole packet that decodes to a command is the packet of that command: no bit of it is dropped. -/
def Obligations.EncodeDecode : Prop :=
  ∀ (p : Packet) (i : Instr), wholePacket p → decode p = .instr i → i.wf = true ∧ encode i = p

/-- R100: a word selects a row of the opcode table when `W & mask = match`, with the row's fields, and a word that selects
none is illegal. -/
def Obligations.OpcodeTableSelects : Prop :=
  ∀ w : Word,
    (w &&& 0xFF00FFFFFFFFFFFC = 0x0100000000000000 ↔
      decodeWord w = .header (.init (w.extractLsb' 48 8) (w.getLsbD 0) (w.getLsbD 1))) ∧
    (w &&& 0xFF0000FFFFFFFFFC = 0x0200000000000000 ↔
      decodeWord w = .header (.initKey (w.extractLsb' 48 8) (w.extractLsb' 40 8) (w.getLsbD 0) (w.getLsbD 1))) ∧
    (w &&& 0xFF00000000000000 = 0x0300000000000000 ↔ decodeWord w = .header (.update (w.extractLsb' 0 56))) ∧
    (w &&& 0xFF00FFFFFFFFFFFF = 0x0400000000000000 ↔ decodeWord w = .header (.final (w.extractLsb' 48 8))) ∧
    ((∃ why, decodeWord w = .illegal why) ↔
      w &&& 0xFF00FFFFFFFFFFFC ≠ 0x0100000000000000 ∧ w &&& 0xFF0000FFFFFFFFFC ≠ 0x0200000000000000 ∧
      w &&& 0xFF00000000000000 ≠ 0x0300000000000000 ∧ w &&& 0xFF00FFFFFFFFFFFF ≠ 0x0400000000000000)

/-- R92: a packet with a reserved opcode has no payload, changes no state and is answered `IllegalCommand` alone. -/
def Obligations.ReservedOpcodeIsIllegal : Prop :=
  ∀ (p : Packet) (s : State), (opc p.word = 0x00 ∨ 5 ≤ (opc p.word).toNat) →
    paylen p.word = 0 ∧ runPacket p s = .next (s.answered (.error .illegalCommand))

/-- R93: a defined opcode with a nonzero reserved bit: the payload is consumed, no state changes, and the answer is
`IllegalCommand`, whatever else is wrong with the command. -/
def Obligations.ReservedBitIsIllegal : Prop :=
  ∀ (s : State) (p : Packet) (rest : List HostEvent), wholePacket p → noResetDuring rest →
    s.input = sendPacket p ++ rest →
    (opc p.word = 0x01 ∧ p.word.extractLsb' 2 46 ≠ 0) ∨ (opc p.word = 0x02 ∧ p.word.extractLsb' 2 38 ≠ 0) ∨
      (opc p.word = 0x04 ∧ p.word.extractLsb' 0 48 ≠ 0) →
    step s = .next { s with input := rest, responses := s.responses ++ [.error .illegalCommand] }

/-- Words written out from the formats decode to the commands they stand for (spec/95_test_vectors.md V-X1, V-X6, V-X9,
V-X12, V-X15). -/
def Obligations.SampleWordsDecode : Prop :=
  decode ⟨0x0140000000000000, []⟩ = .instr (.init 64 none none) ∧
  decode ⟨0x0230030000000001, [0x6b, 0x65, 0x79] ++ List.replicate 16 0xa5⟩ =
    .instr (.initKey 48 [0x6b, 0x65, 0x79] (some (Vector.replicate 16 0xa5)) none) ∧
  decode ⟨0x0300000000000003, [0x61, 0x62, 0x63]⟩ = .instr (.update [0x61, 0x62, 0x63]) ∧
  decode ⟨0x0440000000000000, []⟩ = .instr (.final 64) ∧
  decode ⟨0x0540000000000000, []⟩ = .illegal .reservedOpcode

/-! ### Invariant and reset -/

/-- R44, R221: after reset the phase is Idle (code 0) and the event log is empty. -/
def Obligations.ResetState : Prop :=
  State.reset.phase = .idle ∧ State.reset.phase.code = 0 ∧ State.reset.events = []

/-- The invariant holds at reset; the zeros State.reset has where the spec gives none are the model's choice
(notes/assumptions/1.md). -/
def Obligations.InvariantAtReset : Prop := State.reset.Inv

/-- R36 (which the spec marks "derived: from rule R151, rule R152 and rule R150"), with R22, R24, R27 and the canonical form
of `buf`: every step keeps the invariant, from every state that has it. -/
def Obligations.StepKeepsInvariant : Prop :=
  ∀ s t : State, s.Inv → step s = .next t → t.Inv

/-! ### Sessions -/

/-- R159 (which the spec marks "derived: from rule R152 and rule R156"), R156: the compression events and the responses of a
whole unkeyed session, from any state and however the input is cut into chunks: those of the one-shot function. -/
def Obligations.SessionEqualsOneShot : Prop :=
  ∀ (s : State) (dlen olen : Byte) (salt personal : Option Bytes16) (chunks : List (List Byte)),
    legalLength dlen → legalLength olen →
    ∃ t, runCommands (.init dlen salt personal :: (chunks.map Instr.update ++ [.final olen])) s = .next t ∧
      t.events = sessionEvents (seed dlen.toNat 0 salt personal) chunks.flatten ∧
      t.responses = s.responses ++ (List.replicate (chunks.length + 1) (.ok []) ++
        [.ok ((serialize (sessionResult (seed dlen.toNat 0 salt personal) chunks.flatten)).take olen.toNat)])

/-- R159 (marked "derived" by the spec), R154: the same of a keyed session, whose input begins with the zero-padded key
block. -/
def Obligations.KeyedSessionEqualsOneShot : Prop :=
  ∀ (s : State) (dlen olen : Byte) (key : List Byte) (salt personal : Option Bytes16) (chunks : List (List Byte)),
    legalLength dlen → legalLength olen → legalKey key →
    let x := key ++ List.replicate (128 - key.length) 0 ++ chunks.flatten
    ∃ t, runCommands (.initKey dlen key salt personal :: (chunks.map Instr.update ++ [.final olen])) s = .next t ∧
      t.events = sessionEvents (seed dlen.toNat key.length salt personal) x ∧
      t.responses = s.responses ++ (List.replicate (chunks.length + 1) (.ok []) ++
        [.ok ((serialize (sessionResult (seed dlen.toNat key.length salt personal) x)).take olen.toNat)])

/-- R160 (which the spec marks "derived: from rule R159"): however an input is cut into chunks (empty ones too), the digest
is that of one UPDATE of the whole, and so is the event log; and before FINAL the two states agree but for how often OK was
answered. -/
def Obligations.ChunkingDoesNotMatter : Prop :=
  ∀ (s : State) (chunks : List (List Byte)) (olen : Byte), s.phase.live → s.buf.wf = true → legalLength olen →
    ((chunks ≠ [] ∨ s.phase = .absorbing) →
      ∃ u v, runCommands (chunks.map Instr.update) s = .next u ∧ runCommands [.update chunks.flatten] s = .next v ∧
        State.Agree { u with responses := v.responses } v) ∧
    ∃ t t' d, runCommands (chunks.map Instr.update ++ [.final olen]) s = .next t ∧
      runCommands [.update chunks.flatten, .final olen] s = .next t' ∧
      t.events = t'.events ∧ lastResponse t = some (.ok d) ∧ lastResponse t' = some (.ok d)

/-- R37 (which the spec marks "derived: from rule R152 and rule R156"), the closed form. After `n` bytes of a session (the
key block included) the compressions done, the counter and the fill level, independent of the chunks; and the total once
FINAL has run. -/
def Obligations.ClosedFormOfSession : Prop :=
  ∀ (s : State) (start : Instr) (dlen olen : Byte) (key : List Byte) (salt personal : Option Bytes16)
    (chunks : List (List Byte)) (n : Nat), legalLength dlen → legalLength olen → n < 2 ^ 128 →
    (start = .init dlen salt personal ∧ n = chunks.flatten.length ∨
      legalKey key ∧ start = .initKey dlen key salt personal ∧ n = 128 + chunks.flatten.length) →
    (∃ t, runCommands (start :: chunks.map Instr.update) s = .next t ∧ t.events.length = compressionsBefore n ∧
      t.T = 128 * compressionsBefore n ∧ t.buflen.val = n - 128 * compressionsBefore n) ∧
    ∃ t, runCommands (start :: (chunks.map Instr.update ++ [.final olen])) s = .next t ∧
      t.events.length = compressionsTotal n

/-- R162 (which the spec marks "derived: from rule R152 and rule R156"): the block boundary, for an unkeyed session and one
message. -/
def Obligations.BlockBoundary : Prop :=
  ∀ (s : State) (dlen olen : Byte) (salt personal : Option Bytes16) (x : List Byte), legalLength dlen → legalLength olen →
    ∃ t t', runCommands [.init dlen salt personal, .update x] s = .next t ∧
      runCommands [.init dlen salt personal, .update x, .final olen] s = .next t' ∧
      (t.events = [] ↔ x.length ≤ 256) ∧
      (x.length = 128 → t'.events.map (fun e => (e.block, e.T, e.f0)) = [(takeVec 128 x, 128, true)]) ∧
      (x.length = 129 → t'.events.map (fun e => (e.block, e.T, e.f0)) =
        [(takeVec 128 x, 128, false), (takeVec 128 (x.drop 128), 129, true)]) ∧
      (x.length = 257 → t.events.map (fun e => (e.block, e.T, e.f0)) = [(takeVec 128 x, 128, false)])

/-- R161: the same session gives the same digest on any two states, whatever ran before. -/
def Obligations.RepeatedSessionsAnswerAlike : Prop :=
  ∀ (s s' : State) (start : Instr) (dlen olen : Byte) (key : List Byte) (salt personal : Option Bytes16)
    (chunks : List (List Byte)), legalLength dlen → legalLength olen →
    (start = .init dlen salt personal ∨ legalKey key ∧ start = .initKey dlen key salt personal) →
    ∃ t t' d, runCommands (start :: (chunks.map Instr.update ++ [.final olen])) s = .next t ∧
      runCommands (start :: (chunks.map Instr.update ++ [.final olen])) s' = .next t' ∧
      lastResponse t = some (.ok d) ∧ lastResponse t' = some (.ok d) ∧ d.length = olen.toNat ∧ t.events = t'.events

/-- R222: a host that keeps the order INIT or INIT_KEY, then UPDATEs, then one FINAL, with legal lengths, gets no error. -/
def Obligations.OrderlyHostGetsNoError : Prop :=
  ∀ (s : State) (start : Instr) (dlen olen : Byte) (key : List Byte) (salt personal : Option Bytes16)
    (chunks : List (List Byte)), s.clean → legalLength dlen → legalLength olen →
    (start = .init dlen salt personal ∨ legalKey key ∧ start = .initKey dlen key salt personal) →
    ∃ t, runCommands (start :: (chunks.map Instr.update ++ [.final olen])) s = .next t ∧ t.clean ∧ t.phase = .finalized

/-- R228 (which the spec marks "derived: from rule R154 and rule R156"): the zero-padded key stays in block 0 while at most
128 message bytes have been absorbed. -/
def Obligations.KeyStaysInBlockZero : Prop :=
  ∀ (s : State) (dlen : Byte) (key : List Byte) (salt personal : Option Bytes16) (chunks : List (List Byte)),
    legalLength dlen → legalKey key → chunks.flatten.length ≤ 128 →
    ∃ t, runCommands (.initKey dlen key salt personal :: chunks.map Instr.update) s = .next t ∧
      ∀ a, a < 128 → t.buf.read a = (key ++ List.replicate (128 - key.length) 0).getD a 0

/-- R180, R181: a one-shot hash with bad lengths stops at its first command, with the state as it was: `InvalidParameter`,
and `InvalidKey` for an empty key, which is never demoted to unkeyed mode. A key above 255 bytes no packet can carry: as a
line of a program it sends none, and run as a command its answer stands for the `InvalidParameter` that the host reports
itself (the model's choice, notes/assumptions/14.md, 21.md). -/
def Obligations.OneShotStopsAtBadLengths : Prop :=
  ∀ (s : State) (outlen : Byte) (key input : List Byte),
    (¬ legalLength outlen →
      runUntilError (hashCommands outlen input) s = .next (s.answered (.error .invalidParameter)) ∧
      runUntilError (keyedHashCommands outlen key input) s = .next (s.answered (.error .invalidParameter))) ∧
    (legalLength outlen → 64 < key.length →
      runUntilError (keyedHashCommands outlen key input) s = .next (s.answered (.error .invalidParameter))) ∧
    (legalLength outlen → key = [] →
      runUntilError (keyedHashCommands outlen key input) s = .next (s.answered (.error .invalidKey))) ∧
    (256 ≤ key.length → (AsmLine.keyedHash outlen key input).packets = [])

/-- R180, R181: with legal lengths and a legal key a one-shot hash, from any state and for input of any length (which the host
splits where one packet cannot carry it), ends in the digest of that input. -/
def Obligations.OneShotAnswersTheDigest : Prop :=
  ∀ (s : State) (outlen : Byte) (key input : List Byte), legalLength outlen →
    (∃ t, runUntilError (hashCommands outlen input) s = .next t ∧ lastResponse t =
      some (.ok ((serialize (sessionResult (seed outlen.toNat 0 none none) input)).take outlen.toNat))) ∧
    (legalKey key → ∃ t, runUntilError (keyedHashCommands outlen key input) s = .next t ∧ lastResponse t =
      some (.ok ((serialize (sessionResult (seed outlen.toNat key.length none none)
        (key ++ List.replicate (128 - key.length) 0 ++ input))).take outlen.toNat)))

/-- R126 with R124, R125 and R72: COMPRESS, whole. There are message words `m`, in which byte `k` of the block is bits
`8(k mod 8)+7 : 8(k mod 8)` of `m[k div 8]`, and a work vector `v`, which the eight G of each of exactly 12 rounds leave, round
`r` under SIGMA row `r mod 10`, when they start from `h` and IV with the counter and the flags mixed in; and each word of the
result is `h[i] ^ v[i] ^ v[8 + i]`. The tuples of G, the tables and the word order are what the spec marks "from general
knowledge, not in source" (notes/assumptions/10.md). -/
def Obligations.CompressFollowsItsPseudocode : Prop :=
  ∀ (h : Vector Word 8) (block : Vector Byte 128) (t0 t1 : Word) (f0 f1 : Bool), ∃ m w v : Words16,
    (∀ k : Fin 128, (m[k.val / 8]'(by omega)).extractLsb' (8 * (k.val % 8)) 8 = block[k]) ∧
    (∀ i : Fin 8, w[i.val] = h[i]) ∧ (∀ i : Fin 4, w[8 + i.val] = IV[i.val]) ∧
    w[12] = IV[4] ^^^ t0 ∧ w[13] = IV[5] ^^^ t1 ∧
    w[14] = (if f0 then ~~~IV[6] else IV[6]) ∧ w[15] = (if f1 then ~~~IV[7] else IV[7]) ∧
    v = (List.range 12).foldl (fun v r =>
      ([0, 1, 2, 3, 4, 5, 6, 7] : List (Fin 8)).foldl (mixNumber m (SIGMA[r % 10]'(Nat.mod_lt r (by decide)))) v) w ∧
    ∀ i : Fin 8, (compress h block t0 t1 f0 f1)[i] = h[i] ^^^ v[i.val] ^^^ v[8 + i.val]

/-- R121: every row of SIGMA is a permutation of 0 to 15, the ten rows are distinct, and rounds 10 and 11 use rows 0 and 1
again. The entries are what the spec marks "from general knowledge, not in source" (notes/assumptions/10.md). -/
def Obligations.SigmaRowsArePermutations : Prop :=
  (∀ r : Fin 10, SIGMA[r].toList.Perm (List.finRange 16)) ∧ SIGMA.toList.Nodup ∧
  (∀ r : Fin 10, sigmaRow r.val = SIGMA[r]) ∧ sigmaRow 10 = SIGMA[0] ∧ sigmaRow 11 = SIGMA[1]
end

