-- ==== Sys2Proof/Laws/Memory.lean ====
section
/-! SUPPORT. The buffer's memory: one cell reads back what was written and every other cell is left alone, and every memory
operation keeps the canonical form and the address range. -/

namespace Sys2Proof.Machine.Memory

theorem wfFrom_mono {lo lo' : Nat} {m : Memory} (h : lo' ≤ lo) (hm : wfFrom lo m = true) : wfFrom lo' m = true := by
  cases m with
  | nil => rfl
  | cons c m =>
    obtain ⟨k, b⟩ := c
    simp only [wfFrom, Bool.and_eq_true, decide_eq_true_eq] at hm ⊢
    exact ⟨⟨by omega, hm.1.2⟩, hm.2⟩

/-- Below the least listed address, memory reads as unlisted. -/
theorem read_below {lo a : Nat} {m : Memory} (hm : wfFrom lo m = true) (ha : a < lo) : m.read a = unlisted := by
  induction m generalizing lo with
  | nil => rfl
  | cons c m ih =>
    obtain ⟨k, b⟩ := c
    simp only [wfFrom, Bool.and_eq_true, decide_eq_true_eq] at hm
    rw [read, if_neg (by omega)]
    exact ih hm.2 (by omega)

theorem read_write_same {lo : Nat} {m : Memory} (hm : wfFrom lo m = true) (a : Nat) (b : Byte) :
    (m.write a b).read a = b := by
  induction m generalizing lo with
  | nil => by_cases hb : b = unlisted <;> simp [write, hb, read]
  | cons c m ih =>
    obtain ⟨k, x⟩ := c
    simp only [wfFrom, Bool.and_eq_true, decide_eq_true_eq] at hm
    simp only [write]
    split
    · by_cases hb : b = unlisted
      · simp only [hb, if_true, read]
        rw [if_neg (by omega)]
        exact read_below hm.2 (by omega)
      · simp [hb, read]
    · split
      · by_cases hb : b = unlisted
        · simp only [hb, if_true]
          exact read_below hm.2 (by omega)
        · simp [hb, read]
      · rw [read, if_neg (by omega)]
        exact ih hm.2

theorem read_write_other {lo : Nat} {m : Memory} (hm : wfFrom lo m = true) {a a' : Nat} (b : Byte) (h : a' ≠ a) :
    (m.write a b).read a' = m.read a' := by
  induction m generalizing lo with
  | nil => by_cases hb : b = unlisted <;> simp [write, hb, read, h.symm]
  | cons c m ih =>
    obtain ⟨k, x⟩ := c
    simp only [wfFrom, Bool.and_eq_true, decide_eq_true_eq] at hm
    simp only [write]
    split
    · by_cases hb : b = unlisted
      · simp [hb]
      · simp [hb, read, h.symm]
    · split
      · rename_i hk
        by_cases hb : b = unlisted
        · simp only [hb, if_true, read]
          rw [if_neg (by omega)]
        · simp only [hb, if_false, read]
          rw [if_neg (by omega), if_neg (by omega)]
      · simp only [read]
        split
        · rfl
        · exact ih hm.2

theorem write_wfFrom {lo : Nat} {m : Memory} (hm : wfFrom lo m = true) {a : Nat} (ha : lo ≤ a) (b : Byte) :
    wfFrom lo (m.write a b) = true := by
  induction m generalizing lo with
  | nil => by_cases hb : b = unlisted <;> simp [write, hb, wfFrom, ha]
  | cons c m ih =>
    obtain ⟨k, x⟩ := c
    have hm' := hm
    simp only [wfFrom, Bool.and_eq_true, decide_eq_true_eq] at hm
    obtain ⟨⟨h1, h2⟩, h3⟩ := hm
    simp only [write]
    split
    · by_cases hb : b = unlisted
      · simp [hb, hm']
      · simp only [hb, if_false, wfFrom, Bool.and_eq_true, decide_eq_true_eq]
        exact ⟨⟨ha, hb⟩, ⟨by omega, h2⟩, h3⟩
    · split
      · by_cases hb : b = unlisted
        · simp only [hb, if_true]
          exact wfFrom_mono (by omega) h3
        · simp only [hb, if_false, wfFrom, Bool.and_eq_true, decide_eq_true_eq]
          exact ⟨⟨ha, hb⟩, by rename_i hk; subst hk; exact h3⟩
      · simp only [wfFrom, Bool.and_eq_true, decide_eq_true_eq]
        exact ⟨⟨h1, h2⟩, ih h3 (by omega)⟩

/-- One write keeps the canonical form. -/
theorem write_wf {m : Memory} (hm : m.wf = true) (a : Nat) (b : Byte) : (m.write a b).wf = true :=
  write_wfFrom hm (Nat.zero_le a) b

/-- BufWrite keeps the canonical form. -/
theorem bufWrite_wf {m : Memory} (hm : m.wf = true) (i : Nat) (bs : List Byte) : (m.bufWrite i bs).wf = true := by
  induction bs generalizing m i with
  | nil => exact hm
  | cons b bs ih => exact ih (write_wf hm i b) (i + 1)

theorem write_inRange {m : Memory} (hm : m.inRange = true) {a : Nat} (ha : a < 256) (b : Byte) :
    (m.write a b).inRange = true := by
  induction m with
  | nil => by_cases hb : b = unlisted <;> simp [write, hb, inRange, ha]
  | cons c m ih =>
    obtain ⟨k, x⟩ := c
    simp only [inRange, List.all_cons, Bool.and_eq_true, decide_eq_true_eq] at hm ih ⊢
    simp only [write]
    split
    · split <;> simp [hm.1, hm.2, ha]
    · split
      · split <;> simp [hm.2, ha]
      · simp [hm.1, ih hm.2]

/-- BufWrite inside 0 to 255 lists no address outside it (R51, R52). -/
theorem bufWrite_inRange {m : Memory} (hm : m.inRange = true) (i : Nat) (bs : List Byte) (h : i + bs.length ≤ 256) :
    (m.bufWrite i bs).inRange = true := by
  induction bs generalizing m i with
  | nil => exact hm
  | cons b bs ih =>
    simp only [List.length_cons] at h
    exact ih (write_inRange hm (by omega) b) (i + 1) (by omega)

@[simp] theorem bufWrite_nil (m : Memory) (i : Nat) : m.bufWrite i [] = m := rfl

@[simp] theorem bufWrite_cons (m : Memory) (i : Nat) (b : Byte) (bs : List Byte) :
    m.bufWrite i (b :: bs) = (m.write i b).bufWrite (i + 1) bs := rfl

/-- Two BufWrites side by side are one. -/
theorem bufWrite_append (m : Memory) (i : Nat) (bs cs : List Byte) :
    m.bufWrite i (bs ++ cs) = (m.bufWrite i bs).bufWrite (i + bs.length) cs := by
  induction bs generalizing m i with
  | nil => simp
  | cons b bs ih =>
    simp only [List.cons_append, bufWrite_cons, List.length_cons, ih]
    rw [Nat.add_assoc, Nat.add_comm 1]

@[simp] theorem length_bufRead (m : Memory) (i n : Nat) : (m.bufRead i n).length = n := by
  induction n generalizing i with
  | zero => rfl
  | succ n ih => simp [bufRead, ih]

/-- BufRead in two pieces. -/
theorem bufRead_add (m : Memory) (i n k : Nat) : m.bufRead i (n + k) = m.bufRead i n ++ m.bufRead (i + n) k := by
  induction n generalizing i with
  | zero => simp [bufRead]
  | succ n ih =>
    rw [Nat.succ_add, bufRead, ih, bufRead, List.cons_append]
    congr 3
    omega

theorem nil_wf : Memory.wf [] = true := rfl

theorem nil_inRange : Memory.inRange [] = true := rfl

end Sys2Proof.Machine.Memory

namespace Sys2Proof.Machine

/-- The buffer a reset event leaves is in canonical form. -/
theorem resetBuf_wf (n : Nat) : (resetBuf n).wf = true := Memory.bufWrite_wf Memory.nil_wf 0 _

/-- The buffer a reset event leaves lies in 0 to 255. -/
theorem resetBuf_inRange (n : Nat) : (resetBuf n).inRange = true :=
  Memory.bufWrite_inRange Memory.nil_inRange 0 _ (by simp)

/-- The reset state's memory is in canonical form. -/
theorem reset_buf_wf : State.reset.buf.wf = true := rfl

end Sys2Proof.Machine
end

