-- ==== Sys2Proof/Laws/State.lean ====
section
/-! SUPPORT. One lemma per field per update of the state, true by rfl, so that no proof unfolds a record update; and the field
lemmas of the reset event and of the two ways a command ends. -/

namespace Sys2Proof.Machine
/-! `incCounter` -/
@[simp] theorem incCounter_phase (n : Nat) (s : State) : (incCounter n s).phase = s.phase := rfl
@[simp] theorem incCounter_h (n : Nat) (s : State) : (incCounter n s).h = s.h := rfl
@[simp] theorem incCounter_t0 (n : Nat) (s : State) : (incCounter n s).t0 = s.t0 + BitVec.ofNat 64 n := rfl
@[simp] theorem incCounter_f0 (n : Nat) (s : State) : (incCounter n s).f0 = s.f0 := rfl
@[simp] theorem incCounter_f1 (n : Nat) (s : State) : (incCounter n s).f1 = s.f1 := rfl
@[simp] theorem incCounter_lastNode (n : Nat) (s : State) : (incCounter n s).lastNode = s.lastNode := rfl
@[simp] theorem incCounter_buf (n : Nat) (s : State) : (incCounter n s).buf = s.buf := rfl
@[simp] theorem incCounter_buflen (n : Nat) (s : State) : (incCounter n s).buflen = s.buflen := rfl
@[simp] theorem incCounter_events (n : Nat) (s : State) : (incCounter n s).events = s.events := rfl
@[simp] theorem incCounter_input (n : Nat) (s : State) : (incCounter n s).input = s.input := rfl
@[simp] theorem incCounter_responses (n : Nat) (s : State) : (incCounter n s).responses = s.responses := rfl
@[simp] theorem incCounter_resets (n : Nat) (s : State) : (incCounter n s).resets = s.resets := rfl

/-! `compressBlock` -/
@[simp] theorem compressBlock_phase (s : State) : (compressBlock s).phase = s.phase := rfl
@[simp] theorem compressBlock_h (s : State) : (compressBlock s).h = compress s.h s.buf.block0 s.t0 s.t1 s.f0 s.f1 := rfl
@[simp] theorem compressBlock_t0 (s : State) : (compressBlock s).t0 = s.t0 := rfl
@[simp] theorem compressBlock_t1 (s : State) : (compressBlock s).t1 = s.t1 := rfl
@[simp] theorem compressBlock_f0 (s : State) : (compressBlock s).f0 = s.f0 := rfl
@[simp] theorem compressBlock_f1 (s : State) : (compressBlock s).f1 = s.f1 := rfl
@[simp] theorem compressBlock_lastNode (s : State) : (compressBlock s).lastNode = s.lastNode := rfl
@[simp] theorem compressBlock_buf (s : State) : (compressBlock s).buf = s.buf := rfl
@[simp] theorem compressBlock_buflen (s : State) : (compressBlock s).buflen = s.buflen := rfl
@[simp] theorem compressBlock_input (s : State) : (compressBlock s).input = s.input := rfl
@[simp] theorem compressBlock_responses (s : State) : (compressBlock s).responses = s.responses := rfl
@[simp] theorem compressBlock_resets (s : State) : (compressBlock s).resets = s.resets := rfl

/-! `clearFlags` -/
@[simp] theorem clearFlags_phase (s : State) : (clearFlags s).phase = s.phase := rfl
@[simp] theorem clearFlags_h (s : State) : (clearFlags s).h = s.h := rfl
@[simp] theorem clearFlags_t0 (s : State) : (clearFlags s).t0 = s.t0 := rfl
@[simp] theorem clearFlags_t1 (s : State) : (clearFlags s).t1 = s.t1 := rfl
@[simp] theorem clearFlags_f0 (s : State) : (clearFlags s).f0 = false := rfl
@[simp] theorem clearFlags_f1 (s : State) : (clearFlags s).f1 = false := rfl
@[simp] theorem clearFlags_lastNode (s : State) : (clearFlags s).lastNode = false := rfl
@[simp] theorem clearFlags_buf (s : State) : (clearFlags s).buf = s.buf := rfl
@[simp] theorem clearFlags_buflen (s : State) : (clearFlags s).buflen = s.buflen := rfl
@[simp] theorem clearFlags_events (s : State) : (clearFlags s).events = s.events := rfl
@[simp] theorem clearFlags_input (s : State) : (clearFlags s).input = s.input := rfl
@[simp] theorem clearFlags_responses (s : State) : (clearFlags s).responses = s.responses := rfl
@[simp] theorem clearFlags_resets (s : State) : (clearFlags s).resets = s.resets := rfl

/-! `markLast` -/
@[simp] theorem markLast_phase (s : State) : (markLast s).phase = s.phase := rfl
@[simp] theorem markLast_h (s : State) : (markLast s).h = s.h := rfl
@[simp] theorem markLast_t0 (s : State) : (markLast s).t0 = s.t0 := rfl
@[simp] theorem markLast_t1 (s : State) : (markLast s).t1 = s.t1 := rfl
@[simp] theorem markLast_f0 (s : State) : (markLast s).f0 = true := rfl
@[simp] theorem markLast_f1 (s : State) : (markLast s).f1 = if s.lastNode then true else s.f1 := rfl
@[simp] theorem markLast_lastNode (s : State) : (markLast s).lastNode = s.lastNode := rfl
@[simp] theorem markLast_buf (s : State) : (markLast s).buf = s.buf := rfl
@[simp] theorem markLast_buflen (s : State) : (markLast s).buflen = s.buflen := rfl
@[simp] theorem markLast_events (s : State) : (markLast s).events = s.events := rfl
@[simp] theorem markLast_input (s : State) : (markLast s).input = s.input := rfl
@[simp] theorem markLast_responses (s : State) : (markLast s).responses = s.responses := rfl
@[simp] theorem markLast_resets (s : State) : (markLast s).resets = s.resets := rfl

/-! `appendBytes` -/
@[simp] theorem appendBytes_phase (bs : List Byte) (s : State) (hfit : s.buflen.val + bs.length ≤ 256) : (appendBytes bs s hfit).phase = s.phase := rfl
@[simp] theorem appendBytes_h (bs : List Byte) (s : State) (hfit : s.buflen.val + bs.length ≤ 256) : (appendBytes bs s hfit).h = s.h := rfl
@[simp] theorem appendBytes_t0 (bs : List Byte) (s : State) (hfit : s.buflen.val + bs.length ≤ 256) : (appendBytes bs s hfit).t0 = s.t0 := rfl
@[simp] theorem appendBytes_t1 (bs : List Byte) (s : State) (hfit : s.buflen.val + bs.length ≤ 256) : (appendBytes bs s hfit).t1 = s.t1 := rfl
@[simp] theorem appendBytes_f0 (bs : List Byte) (s : State) (hfit : s.buflen.val + bs.length ≤ 256) : (appendBytes bs s hfit).f0 = s.f0 := rfl
@[simp] theorem appendBytes_f1 (bs : List Byte) (s : State) (hfit : s.buflen.val + bs.length ≤ 256) : (appendBytes bs s hfit).f1 = s.f1 := rfl
@[simp] theorem appendBytes_lastNode (bs : List Byte) (s : State) (hfit : s.buflen.val + bs.length ≤ 256) : (appendBytes bs s hfit).lastNode = s.lastNode := rfl
@[simp] theorem appendBytes_buf (bs : List Byte) (s : State) (hfit : s.buflen.val + bs.length ≤ 256) : (appendBytes bs s hfit).buf = s.buf.bufWrite s.buflen.val bs := rfl
@[simp] theorem appendBytes_buflen (bs : List Byte) (s : State) (hfit : s.buflen.val + bs.length ≤ 256) : (appendBytes bs s hfit).buflen = ⟨s.buflen.val + bs.length, by omega⟩ := rfl
@[simp] theorem appendBytes_events (bs : List Byte) (s : State) (hfit : s.buflen.val + bs.length ≤ 256) : (appendBytes bs s hfit).events = s.events := rfl
@[simp] theorem appendBytes_input (bs : List Byte) (s : State) (hfit : s.buflen.val + bs.length ≤ 256) : (appendBytes bs s hfit).input = s.input := rfl
@[simp] theorem appendBytes_responses (bs : List Byte) (s : State) (hfit : s.buflen.val + bs.length ≤ 256) : (appendBytes bs s hfit).responses = s.responses := rfl
@[simp] theorem appendBytes_resets (bs : List Byte) (s : State) (hfit : s.buflen.val + bs.length ≤ 256) : (appendBytes bs s hfit).resets = s.resets := rfl

/-! `shiftLeft` -/
@[simp] theorem shiftLeft_phase (s : State) : (shiftLeft s).phase = s.phase := by simp only [shiftLeft]
@[simp] theorem shiftLeft_h (s : State) : (shiftLeft s).h = s.h := by simp only [shiftLeft]
@[simp] theorem shiftLeft_t0 (s : State) : (shiftLeft s).t0 = s.t0 := by simp only [shiftLeft]
@[simp] theorem shiftLeft_t1 (s : State) : (shiftLeft s).t1 = s.t1 := by simp only [shiftLeft]
@[simp] theorem shiftLeft_f0 (s : State) : (shiftLeft s).f0 = s.f0 := by simp only [shiftLeft]
@[simp] theorem shiftLeft_f1 (s : State) : (shiftLeft s).f1 = s.f1 := by simp only [shiftLeft]
@[simp] theorem shiftLeft_lastNode (s : State) : (shiftLeft s).lastNode = s.lastNode := by simp only [shiftLeft]
@[simp] theorem shiftLeft_buf (s : State) : (shiftLeft s).buf = s.buf.bufWrite 0 (s.buf.bufRead 128 128) := by simp only [shiftLeft]
@[simp] theorem shiftLeft_buflen (s : State) : (shiftLeft s).buflen = 128 := by simp only [shiftLeft]
@[simp] theorem shiftLeft_events (s : State) : (shiftLeft s).events = s.events := by simp only [shiftLeft]
@[simp] theorem shiftLeft_input (s : State) : (shiftLeft s).input = s.input := by simp only [shiftLeft]
@[simp] theorem shiftLeft_responses (s : State) : (shiftLeft s).responses = s.responses := by simp only [shiftLeft]
@[simp] theorem shiftLeft_resets (s : State) : (shiftLeft s).resets = s.resets := by simp only [shiftLeft]

/-! `fillBuffer` -/
@[simp] theorem fillBuffer_phase (bs : List Byte) (s : State) : (fillBuffer bs s).phase = s.phase := rfl
@[simp] theorem fillBuffer_h (bs : List Byte) (s : State) : (fillBuffer bs s).h = s.h := rfl
@[simp] theorem fillBuffer_t0 (bs : List Byte) (s : State) : (fillBuffer bs s).t0 = s.t0 := rfl
@[simp] theorem fillBuffer_t1 (bs : List Byte) (s : State) : (fillBuffer bs s).t1 = s.t1 := rfl
@[simp] theorem fillBuffer_f0 (bs : List Byte) (s : State) : (fillBuffer bs s).f0 = s.f0 := rfl
@[simp] theorem fillBuffer_f1 (bs : List Byte) (s : State) : (fillBuffer bs s).f1 = s.f1 := rfl
@[simp] theorem fillBuffer_lastNode (bs : List Byte) (s : State) : (fillBuffer bs s).lastNode = s.lastNode := rfl
@[simp] theorem fillBuffer_buf (bs : List Byte) (s : State) : (fillBuffer bs s).buf = s.buf.bufWrite s.buflen.val (bs.take (256 - s.buflen.val)) := rfl
@[simp] theorem fillBuffer_buflen (bs : List Byte) (s : State) : (fillBuffer bs s).buflen = 256 := rfl
@[simp] theorem fillBuffer_events (bs : List Byte) (s : State) : (fillBuffer bs s).events = s.events := rfl
@[simp] theorem fillBuffer_input (bs : List Byte) (s : State) : (fillBuffer bs s).input = s.input := rfl
@[simp] theorem fillBuffer_responses (bs : List Byte) (s : State) : (fillBuffer bs s).responses = s.responses := rfl
@[simp] theorem fillBuffer_resets (bs : List Byte) (s : State) : (fillBuffer bs s).resets = s.resets := rfl

/-! `startWith` -/
@[simp] theorem startWith_phase (p : Vector Byte 64) (s : State) : (startWith p s).phase = s.phase := rfl
@[simp] theorem startWith_h (p : Vector Byte 64) (s : State) : (startWith p s).h = paramApply p := rfl
@[simp] theorem startWith_t0 (p : Vector Byte 64) (s : State) : (startWith p s).t0 = 0 := rfl
@[simp] theorem startWith_t1 (p : Vector Byte 64) (s : State) : (startWith p s).t1 = 0 := rfl
@[simp] theorem startWith_f0 (p : Vector Byte 64) (s : State) : (startWith p s).f0 = false := rfl
@[simp] theorem startWith_f1 (p : Vector Byte 64) (s : State) : (startWith p s).f1 = false := rfl
@[simp] theorem startWith_lastNode (p : Vector Byte 64) (s : State) : (startWith p s).lastNode = false := rfl
@[simp] theorem startWith_buf (p : Vector Byte 64) (s : State) : (startWith p s).buf = [] := rfl
@[simp] theorem startWith_buflen (p : Vector Byte 64) (s : State) : (startWith p s).buflen = 0 := rfl
@[simp] theorem startWith_events (p : Vector Byte 64) (s : State) : (startWith p s).events = [] := rfl
@[simp] theorem startWith_input (p : Vector Byte 64) (s : State) : (startWith p s).input = s.input := rfl
@[simp] theorem startWith_responses (p : Vector Byte 64) (s : State) : (startWith p s).responses = s.responses := rfl
@[simp] theorem startWith_resets (p : Vector Byte 64) (s : State) : (startWith p s).resets = s.resets := rfl


/-- INC_COUNTER's carry into the high word (R150). -/
theorem incCounter_t1 (n : Nat) (s : State) : (incCounter n s).t1 =
    s.t1 + (if s.t0 + BitVec.ofNat 64 n < BitVec.ofNat 64 n then (1 : Word) else 0) := rfl

/-- COMPRESS emits exactly one event, of the operands it was given (R43, R126). -/
theorem compressBlock_events (s : State) : (compressBlock s).events = s.events ++
    [{ hIn := s.h, block := s.buf.block0, t0 := s.t0, t1 := s.t1, f0 := s.f0, f1 := s.f1, hOut := (compressBlock s).h }] := rfl

@[simp] theorem compressBlock_length_events (s : State) :
    (compressBlock s).events.length = s.events.length + 1 := by
  simp [compressBlock_events]

/-! The reset event (R220, R221). -/

@[simp] theorem resetEvent_phase (rest : List HostEvent) (s : State) : (resetEvent rest s).phase = .idle := by simp only [resetEvent]
@[simp] theorem resetEvent_events (rest : List HostEvent) (s : State) : (resetEvent rest s).events = [] := by simp only [resetEvent]
@[simp] theorem resetEvent_input (rest : List HostEvent) (s : State) : (resetEvent rest s).input = rest := by simp only [resetEvent]
@[simp] theorem resetEvent_responses (rest : List HostEvent) (s : State) :
    (resetEvent rest s).responses = s.responses := by simp only [resetEvent]
@[simp] theorem resetEvent_resets (rest : List HostEvent) (s : State) : (resetEvent rest s).resets = s.resets + 1 := by simp only [resetEvent]
@[simp] theorem resetEvent_buf (rest : List HostEvent) (s : State) : (resetEvent rest s).buf = resetBuf s.resets := by simp only [resetEvent]

/-! The two ways a command ends (R194, R195). -/

theorem respond_eq (data : List Byte) (s : State) :
    respond data s = .next { s with responses := s.responses ++ [.ok data] } := rfl

theorem raise_eq (e : CmdError) (s : State) :
    raise e s = .next { s with responses := s.responses ++ [.error e] } := rfl

/-- A normal end says exactly which state comes next. -/
theorem respond_eq_next {data : List Byte} {s t : State} :
    respond data s = .next t ↔ t = { s with responses := s.responses ++ [.ok data] } := by
  rw [respond_eq, Host.Outcome.next.injEq, eq_comm]

/-- An error says exactly which state comes next. -/
theorem raise_eq_next {e : CmdError} {s t : State} :
    raise e s = .next t ↔ t = { s with responses := s.responses ++ [.error e] } := by
  rw [raise_eq, Host.Outcome.next.injEq, eq_comm]

end Sys2Proof.Machine
end

