-- ==== Sys2Proof/Laws/Absorb.lean ====
section
/-! SUPPORT. ABSORB's loop equations (spec/43_state_machine.md R152) without the bound on its passes, an induction principle
that follows the loop, and what ABSORB never touches. -/

namespace Sys2Proof.Machine

@[simp] theorem overflowPass_buflen (bs : List Byte) (s : State) : (overflowPass bs s).buflen = 128 := by
  simp only [overflowPass, shiftLeft_buflen]

/-- A pass fills the buffer and copies block 1 onto block 0 (R152, R53). -/
theorem overflowPass_buf (bs : List Byte) (s : State) : (overflowPass bs s).buf =
    (fillBuffer bs s).buf.bufWrite 0 ((fillBuffer bs s).buf.bufRead 128 128) := by
  simp only [overflowPass, shiftLeft_buf, compressBlock_buf, incCounter_buf]

/-- With passes enough, the bound does not matter. -/
theorem absorbLoop_bound {n n' : Nat} {bs : List Byte} {s : State}
    (h : bs.length + (if s.buflen.val = 256 then 2 else 1) ≤ n)
    (h' : bs.length + (if s.buflen.val = 256 then 2 else 1) ≤ n') :
    absorbLoop n bs s = absorbLoop n' bs s := by
  induction n generalizing n' bs s with
  | zero => split at h <;> omega
  | succ n ih =>
    cases n' with
    | zero => split at h' <;> omega
    | succ n' =>
      simp only [absorbLoop]
      split
      · rfl
      · split
        · rfl
        · have hlt := s.buflen.isLt
          rename_i h1 h2
          have hp : 0 < bs.length := List.length_pos_iff.mpr h1
          apply ih <;> simp only [overflowPass_buflen, List.length_drop] <;> split at h <;> split at h' <;>
            simp only [show ((128 : Fin 257).val = 256) = False from by decide, if_false] <;> omega

/-- Empty input: no change at all (R152). -/
@[simp] theorem absorb_nil (s : State) : absorb [] s = s := by simp [absorb, absorbLoop]

/-- Input that fits is only buffered (R152). -/
theorem absorb_fits {bs : List Byte} {s : State} (hne : bs ≠ []) (h : s.buflen.val + bs.length ≤ 256) :
    absorb bs s = appendBytes bs s h := by
  simp [absorb, absorbLoop, hne, h]

/-- Input that overflows: one pass, then the rest of the loop (R152). -/
theorem absorb_overflow {bs : List Byte} {s : State} (h : 256 < s.buflen.val + bs.length) :
    absorb bs s = absorb (bs.drop (256 - s.buflen.val)) (overflowPass bs s) := by
  have hlt := s.buflen.isLt
  have hne : bs ≠ [] := by rintro rfl; simp at h; omega
  have hp : 0 < bs.length := List.length_pos_iff.mpr hne
  rw [absorb, absorbLoop, if_neg hne, dif_neg (by omega), absorb]
  apply absorbLoop_bound <;> simp only [overflowPass_buflen, List.length_drop,
    show ((128 : Fin 257).val = 256) = False from by decide, if_false] <;> omega

/-- What holds for empty input and for input that fits, and is carried over a pass, holds of ABSORB. -/
theorem absorb_induction {P : List Byte → State → Prop} (hnil : ∀ s, P [] s)
    (hfits : ∀ bs s, bs ≠ [] → s.buflen.val + bs.length ≤ 256 → P bs s)
    (hover : ∀ bs s, 256 < s.buflen.val + bs.length →
      P (bs.drop (256 - s.buflen.val)) (overflowPass bs s) → P bs s) :
    ∀ bs s, P bs s := by
  have key : ∀ n (bs : List Byte) (s : State), bs.length + (if s.buflen.val = 256 then 2 else 1) ≤ n → P bs s := by
    intro n
    induction n with
    | zero => intro bs s h; split at h <;> omega
    | succ n ih =>
      intro bs s h
      by_cases hne : bs = []
      · subst hne; exact hnil s
      · by_cases hf : s.buflen.val + bs.length ≤ 256
        · exact hfits bs s hne hf
        · have hlt := s.buflen.isLt
          have hp : 0 < bs.length := List.length_pos_iff.mpr hne
          refine hover bs s (by omega) (ih _ _ ?_)
          simp only [overflowPass_buflen, List.length_drop, show ((128 : Fin 257).val = 256) = False from by decide,
            if_false]
          split at h <;> omega
  intro bs s
  exact key _ bs s (Nat.le_refl _)

/-- ABSORB never touches the phase, the flags, the streams or the reset count (R39). -/
theorem absorb_frame (bs : List Byte) (s : State) :
    (absorb bs s).phase = s.phase ∧ (absorb bs s).f0 = s.f0 ∧ (absorb bs s).f1 = s.f1 ∧
    (absorb bs s).lastNode = s.lastNode ∧ (absorb bs s).input = s.input ∧
    (absorb bs s).responses = s.responses ∧ (absorb bs s).resets = s.resets := by
  induction bs, s using absorb_induction with
  | hnil s => simp
  | hfits bs s hne hf => simp [absorb_fits hne hf]
  | hover bs s h ih => rw [absorb_overflow h]; simpa [overflowPass] using ih

@[simp] theorem absorb_phase (bs : List Byte) (s : State) : (absorb bs s).phase = s.phase := (absorb_frame bs s).1
@[simp] theorem absorb_f0 (bs : List Byte) (s : State) : (absorb bs s).f0 = s.f0 := (absorb_frame bs s).2.1
@[simp] theorem absorb_f1 (bs : List Byte) (s : State) : (absorb bs s).f1 = s.f1 := (absorb_frame bs s).2.2.1
@[simp] theorem absorb_lastNode (bs : List Byte) (s : State) : (absorb bs s).lastNode = s.lastNode :=
  (absorb_frame bs s).2.2.2.1
@[simp] theorem absorb_input (bs : List Byte) (s : State) : (absorb bs s).input = s.input :=
  (absorb_frame bs s).2.2.2.2.1
@[simp] theorem absorb_responses (bs : List Byte) (s : State) : (absorb bs s).responses = s.responses :=
  (absorb_frame bs s).2.2.2.2.2.1
@[simp] theorem absorb_resets (bs : List Byte) (s : State) : (absorb bs s).resets = s.resets :=
  (absorb_frame bs s).2.2.2.2.2.2

/-- ABSORB keeps the canonical form of `buf`. -/
theorem absorb_buf_wf (bs : List Byte) (s : State) (hs : s.buf.wf = true) : (absorb bs s).buf.wf = true := by
  induction bs, s using absorb_induction with
  | hnil s => simpa using hs
  | hfits bs s hne hf => rw [absorb_fits hne hf]; exact Memory.bufWrite_wf hs _ _
  | hover bs s h ih =>
    rw [absorb_overflow h]
    apply ih
    rw [overflowPass_buf, fillBuffer_buf]
    exact Memory.bufWrite_wf (Memory.bufWrite_wf hs _ _) _ _

/-- ABSORB lists no address outside `buf` (R51). -/
theorem absorb_buf_inRange (bs : List Byte) (s : State) (hs : s.buf.inRange = true) :
    (absorb bs s).buf.inRange = true := by
  induction bs, s using absorb_induction with
  | hnil s => simpa using hs
  | hfits bs s hne hf => rw [absorb_fits hne hf]; exact Memory.bufWrite_inRange hs _ _ hf
  | hover bs s h ih =>
    rw [absorb_overflow h]
    have hlt := s.buflen.isLt
    apply ih
    rw [overflowPass_buf, fillBuffer_buf]
    refine Memory.bufWrite_inRange (Memory.bufWrite_inRange hs _ _ ?_) _ _ (by simp)
    rw [List.length_take]
    omega

end Sys2Proof.Machine
end

