-- ==== Sys2Proof/Laws/Commands.lean ====
section
/-! SUPPORT. One lemma for each operation the commands share: START, the two halves of FINAL, the checks, and fetching. -/

namespace Sys2Proof.Machine

theorem lengthLegal_iff (n : Nat) : lengthLegal n = true ↔ 1 ≤ n ∧ n ≤ 64 := by
  simp [lengthLegal]

theorem lengthLegal_false_iff (n : Nat) : lengthLegal n = false ↔ n < 1 ∨ 64 < n := by
  rw [← Bool.not_eq_true, lengthLegal_iff]
  omega

/-- START on legal lengths (R151, R141). -/
theorem start_ok {dl kl : Nat} (hd : lengthLegal dl = true) (hk : kl ≤ maxKeyLength) (salt personal : Bytes16) (s : State) :
    start dl kl salt personal s = .ok (startWith (packParams dl kl salt personal) s) := by
  rw [lengthLegal_iff] at hd
  rw [start, paramBuild, if_neg (by omega), if_neg (by omega)]

theorem phaseError_none_iff (p : Phase) : phaseError p = none ↔ p.live := by
  cases p <;> simp [phaseError, Phase.live]

/-- INIT with a legal digest length (R153). -/
theorem execInit_legal {dlen : Byte} (hd : lengthLegal dlen.toNat = true) (salt personal : Option Bytes16) (s : State) :
    execInit dlen salt personal s = respond [] { startWith (packParams dlen.toNat 0 (orZeros salt) (orZeros personal)) s with
      phase := .fresh } := by
  rw [execInit, if_neg (by simp [hd]), start_ok hd (Nat.zero_le _)]

/-- INIT_KEY with legal lengths (R154). -/
theorem execInitKey_legal {dlen : Byte} {key : List Byte} (hd : lengthLegal dlen.toNat = true) (hk : key.length ≤ maxKeyLength)
    (h0 : key.length ≠ 0) (salt personal : Option Bytes16) (s : State) :
    execInitKey dlen key salt personal s = respond [] { absorb (keyBlock key)
      (startWith (packParams dlen.toNat key.length (orZeros salt) (orZeros personal)) s) with phase := .absorbing } := by
  rw [execInitKey, if_neg (by simp [hd]), if_neg (by omega), if_neg h0, start_ok hd hk]

/-- UPDATE in an open session (R155). -/
theorem execUpdate_live {s : State} (hs : s.phase.live) (bytes : List Byte) :
    execUpdate bytes s = respond [] { absorb bytes s with phase := .absorbing } := by
  rw [execUpdate, (phaseError_none_iff s.phase).mpr hs]

/-- FINAL with a legal length in an open session (R156). -/
theorem execFinal_live {s : State} (hs : s.phase.live) {olen : Byte} (ho : lengthLegal olen.toNat = true) :
    execFinal olen s = respond ((serialize (compressLast (compressFirstOfTwo s)).h).take olen.toNat)
      { compressLast (compressFirstOfTwo s) with phase := .finalized } := by
  rw [execFinal, (phaseError_none_iff s.phase).mpr hs]
  simp only [ho]
  rfl

/-- FINAL's first half with one block or less buffered: nothing (R156). -/
theorem compressFirstOfTwo_one {s : State} (h : s.buflen.val ≤ 128) : compressFirstOfTwo s = s := by
  rw [compressFirstOfTwo, if_neg (by omega)]

/-- FINAL's first half with two blocks buffered: an ordinary compression, and the tail shifted down (R156). -/
theorem compressFirstOfTwo_two {s : State} (h : 128 < s.buflen.val) : compressFirstOfTwo s =
    { compressBlock (incCounter 128 s) with
      buf := s.buf.bufWrite 0 (s.buf.bufRead 128 (s.buflen.val - 128))
      buflen := ⟨s.buflen.val - 128, by omega⟩ } := by
  rw [compressFirstOfTwo, if_pos (by omega)]
  simp only [compressBlock_buf, incCounter_buf, compressBlock_buflen, incCounter_buflen]

/-- After FINAL's first half at most one block is buffered (R156: "now 1 to 128"). -/
theorem compressFirstOfTwo_buflen_le (s : State) : (compressFirstOfTwo s).buflen.val ≤ 128 := by
  have := s.buflen.isLt
  by_cases h : s.buflen.val ≤ 128
  · rwa [compressFirstOfTwo_one h]
  · rw [compressFirstOfTwo_two (by omega)]
    simp only
    omega

/-- FINAL's two halves never touch the phase, the tree marker, the streams or the reset count. -/
theorem compressHalves_frame (s : State) :
    (compressLast (compressFirstOfTwo s)).phase = s.phase ∧
    (compressLast (compressFirstOfTwo s)).lastNode = s.lastNode ∧
    (compressLast (compressFirstOfTwo s)).input = s.input ∧
    (compressLast (compressFirstOfTwo s)).responses = s.responses ∧
    (compressLast (compressFirstOfTwo s)).resets = s.resets := by
  by_cases h : s.buflen.val ≤ 128
  · simp [compressFirstOfTwo_one h, compressLast]
  · simp [compressFirstOfTwo_two (Nat.lt_of_not_le h), compressLast]

/-- FINAL's second half pads the buffer with zeros to its end (R156). -/
theorem compressLast_buf (s : State) :
    (compressLast s).buf = s.buf.bufWrite s.buflen.val (List.replicate (256 - s.buflen.val) 0) := by
  simp only [compressLast, compressBlock_buf, markLast_buf, markLast_buflen, incCounter_buf, incCounter_buflen]

/-- FINAL keeps the canonical form of `buf`. -/
theorem compressHalves_buf_wf {s : State} (hs : s.buf.wf = true) :
    (compressLast (compressFirstOfTwo s)).buf.wf = true := by
  rw [compressLast_buf]
  apply Memory.bufWrite_wf
  by_cases h : s.buflen.val ≤ 128
  · rwa [compressFirstOfTwo_one h]
  · rw [compressFirstOfTwo_two (by omega)]
    simp only
    exact Memory.bufWrite_wf hs _ _

/-- FINAL lists no address outside `buf` (R51). -/
theorem compressHalves_buf_inRange {s : State} (hs : s.buf.inRange = true) :
    (compressLast (compressFirstOfTwo s)).buf.inRange = true := by
  have hlt := s.buflen.isLt
  have hle := compressFirstOfTwo_buflen_le s
  rw [compressLast_buf]
  refine Memory.bufWrite_inRange ?_ _ _ (by rw [List.length_replicate]; omega)
  by_cases h : s.buflen.val ≤ 128
  · rwa [compressFirstOfTwo_one h]
  · rw [compressFirstOfTwo_two (by omega)]
    simp only
    exact Memory.bufWrite_inRange hs _ _ (by rw [Memory.length_bufRead]; omega)

/-! ### Fetching -/

/-- Bytes that are all there are taken (R56). -/
theorem takeBytes_all (bs : List Byte) (rest : List HostEvent) :
    takeBytes bs.length (bs.map HostEvent.byte ++ rest) = .bytes bs rest := by
  induction bs with
  | nil => rfl
  | cons b bs ih => simp [takeBytes, ih]

/-- Bytes that end too soon are waited for (R226). -/
theorem takeBytes_short {n : Nat} {bs : List Byte} (h : bs.length < n) : takeBytes n (bs.map HostEvent.byte) = .short := by
  induction bs generalizing n with
  | nil =>
    cases n with
    | zero => simp at h
    | succ n => rfl
  | cons b bs ih =>
    cases n with
    | zero => simp at h
    | succ n => simp [takeBytes, ih (Nat.lt_of_succ_lt_succ h)]

/-- A reset before the last byte drops what was received (R220). -/
theorem takeBytes_reset {n : Nat} {bs : List Byte} (h : bs.length < n) {r : HostEvent}
    (hr : r = .reset ∨ r = .resetDuringCommand) (rest : List HostEvent) :
    takeBytes n (bs.map HostEvent.byte ++ r :: rest) = .reset rest := by
  induction bs generalizing n with
  | nil =>
    cases n with
    | zero => simp at h
    | succ n => rcases hr with rfl | rfl <;> rfl
  | cons b bs ih =>
    cases n with
    | zero => simp at h
    | succ n => simp [takeBytes, ih (Nat.lt_of_succ_lt_succ h)]

end Sys2Proof.Machine
end

