-- ==== Sys2Proof/Laws/Encoding.lean ====
section
/-! SUPPORT. The fields of the word that the encoder makes, format by format (spec/30_encoding.md R83 to R86): one lemma per
field, so that no proof unfolds the concatenations again. -/

namespace Sys2Proof

open Sys2Proof.Machine

/-! Format I. -/

@[simp] theorem opc_encodeWord_init (d : Byte) (s p : Option Bytes16) : opc (encodeWord (.init d s p)) = 0x01 := by
  rw [opc, encodeWord, BitVec.extractLsb'_append_eq_of_le (by decide), BitVec.extractLsb'_append_eq_of_le (by decide),
    BitVec.extractLsb'_append_eq_of_le (by decide), BitVec.extractLsb'_append_eq_of_le (by decide)]
  simp

@[simp] theorem lengthField_encodeWord_init (d : Byte) (s p : Option Bytes16) :
    lengthField (encodeWord (.init d s p)) = d := by
  rw [lengthField, encodeWord, BitVec.extractLsb'_append_eq_of_le (by decide),
    BitVec.extractLsb'_append_eq_of_le (by decide), BitVec.extractLsb'_append_eq_of_le (by decide),
    BitVec.extractLsb'_append_eq_of_add_le (by decide)]
  simp

@[simp] theorem reserved_encodeWord_init (d : Byte) (s p : Option Bytes16) :
    (encodeWord (.init d s p)).extractLsb' 2 46 = 0 := by
  rw [encodeWord, BitVec.extractLsb'_append_eq_of_le (by decide), BitVec.extractLsb'_append_eq_of_le (by decide),
    BitVec.extractLsb'_append_eq_of_add_le (by decide)]
  simp

@[simp] theorem saltBit_encodeWord_init (d : Byte) (s p : Option Bytes16) :
    saltBit (encodeWord (.init d s p)) = s.isSome := by
  rw [saltBit, encodeWord, BitVec.getLsbD_append]
  simp

@[simp] theorem personalBit_encodeWord_init (d : Byte) (s p : Option Bytes16) :
    personalBit (encodeWord (.init d s p)) = p.isSome := by
  rw [personalBit, encodeWord, BitVec.getLsbD_append, BitVec.getLsbD_append]
  simp

/-! Format K. -/

@[simp] theorem opc_encodeWord_initKey (d : Byte) (k : List Byte) (s p : Option Bytes16) :
    opc (encodeWord (.initKey d k s p)) = 0x02 := by
  rw [opc, encodeWord, BitVec.extractLsb'_append_eq_of_le (by decide), BitVec.extractLsb'_append_eq_of_le (by decide),
    BitVec.extractLsb'_append_eq_of_le (by decide), BitVec.extractLsb'_append_eq_of_le (by decide),
    BitVec.extractLsb'_append_eq_of_le (by decide)]
  simp

@[simp] theorem lengthField_encodeWord_initKey (d : Byte) (k : List Byte) (s p : Option Bytes16) :
    lengthField (encodeWord (.initKey d k s p)) = d := by
  rw [lengthField, encodeWord, BitVec.extractLsb'_append_eq_of_le (by decide),
    BitVec.extractLsb'_append_eq_of_le (by decide), BitVec.extractLsb'_append_eq_of_le (by decide),
    BitVec.extractLsb'_append_eq_of_le (by decide), BitVec.extractLsb'_append_eq_of_add_le (by decide)]
  simp

@[simp] theorem klen_encodeWord_initKey (d : Byte) (k : List Byte) (s p : Option Bytes16) :
    klen (encodeWord (.initKey d k s p)) = BitVec.ofNat 8 k.length := by
  rw [klen, encodeWord, BitVec.extractLsb'_append_eq_of_le (by decide), BitVec.extractLsb'_append_eq_of_le (by decide),
    BitVec.extractLsb'_append_eq_of_le (by decide), BitVec.extractLsb'_append_eq_of_add_le (by decide)]
  simp

@[simp] theorem reserved_encodeWord_initKey (d : Byte) (k : List Byte) (s p : Option Bytes16) :
    (encodeWord (.initKey d k s p)).extractLsb' 2 38 = 0 := by
  rw [encodeWord, BitVec.extractLsb'_append_eq_of_le (by decide), BitVec.extractLsb'_append_eq_of_le (by decide),
    BitVec.extractLsb'_append_eq_of_add_le (by decide)]
  simp

@[simp] theorem saltBit_encodeWord_initKey (d : Byte) (k : List Byte) (s p : Option Bytes16) :
    saltBit (encodeWord (.initKey d k s p)) = s.isSome := by
  rw [saltBit, encodeWord, BitVec.getLsbD_append]
  simp

@[simp] theorem personalBit_encodeWord_initKey (d : Byte) (k : List Byte) (s p : Option Bytes16) :
    personalBit (encodeWord (.initKey d k s p)) = p.isSome := by
  rw [personalBit, encodeWord, BitVec.getLsbD_append, BitVec.getLsbD_append]
  simp

/-! Format U. -/

@[simp] theorem opc_encodeWord_update (bs : List Byte) : opc (encodeWord (.update bs)) = 0x03 := by
  rw [opc, encodeWord, BitVec.extractLsb'_append_eq_of_le (by decide)]
  simp

@[simp] theorem lenField_encodeWord_update (bs : List Byte) :
    lenField (encodeWord (.update bs)) = BitVec.ofNat 56 bs.length := by
  rw [lenField, encodeWord, BitVec.extractLsb'_append_eq_of_add_le (by decide)]
  simp

/-! Format F. -/

@[simp] theorem opc_encodeWord_final (o : Byte) : opc (encodeWord (.final o)) = 0x04 := by
  rw [opc, encodeWord, BitVec.extractLsb'_append_eq_of_le (by decide), BitVec.extractLsb'_append_eq_of_le (by decide)]
  simp

@[simp] theorem lengthField_encodeWord_final (o : Byte) : lengthField (encodeWord (.final o)) = o := by
  rw [lengthField, encodeWord, BitVec.extractLsb'_append_eq_of_le (by decide),
    BitVec.extractLsb'_append_eq_of_add_le (by decide)]
  simp

@[simp] theorem reserved_encodeWord_final (o : Byte) : (encodeWord (.final o)).extractLsb' 0 48 = 0 := by
  rw [encodeWord, BitVec.extractLsb'_append_eq_of_add_le (by decide)]
  simp

@[simp] theorem length_optToBytes (b : Option Bytes16) : (optToBytes b).length = optLen b.isSome := by
  cases b <;> simp [optToBytes, optLen]

/-- A vector is taken back off the front of its own bytes. -/
theorem takeVec_append {n : Nat} (v : Vector Byte n) (l : List Byte) : takeVec n (v.toList ++ l) = v := by
  ext i hi : 1
  simp [takeVec, List.getD_eq_getElem?_getD, List.getElem?_append_left]

/-- Only the first `n` bytes matter. -/
theorem takeVec_congr {n : Nat} {l l' : List Byte} (h : l.take n = l'.take n) : takeVec n l = takeVec n l' := by
  ext i hi : 1
  have h := congrArg (fun l => l[i]?) h
  simp only [List.getElem?_take, hi, if_true] at h
  simp [takeVec, List.getD_eq_getElem?_getD, h]

end Sys2Proof
end

