-- ==== Sys2Proof/Laws/PerInstr.lean ====
section
/-! SUPPORT. What is said of each command as syntax: the packet of a well-formed command is whole, its payload having the
length that its own command word determines (spec/30_encoding.md R80, R87). -/

namespace Sys2Proof.Laws.PacketLength

open Sys2Proof Sys2Proof.Machine

/-- The payload of a well-formed command has the length of its word. -/
def Statement (i : Instr) : Prop := i.wf = true → (encode i).payload.length = paylen (encode i).word

theorem init (dlen : Byte) (salt personal : Option Bytes16) : Statement (.init dlen salt personal) := by
  intro _
  simp [encode, encodePayload, paylen]

theorem initKey (dlen : Byte) (key : List Byte) (salt personal : Option Bytes16) :
    Statement (.initKey dlen key salt personal) := by
  intro h
  simp only [Instr.wf, decide_eq_true_eq] at h
  simp only [encode, encodePayload, List.length_append, length_optToBytes, paylen, opc_encodeWord_initKey,
    klen_encodeWord_initKey, saltBit_encodeWord_initKey, personalBit_encodeWord_initKey, BitVec.toNat_ofNat]
  simp
  omega

theorem update (bytes : List Byte) : Statement (.update bytes) := by
  intro h
  simp only [Instr.wf, decide_eq_true_eq] at h
  simp only [encode, encodePayload, paylen, opc_encodeWord_update, lenField_encodeWord_update, BitVec.toNat_ofNat]
  simp only [Nat.mod_eq_of_lt h]
  rfl

theorem final (olen : Byte) : Statement (.final olen) := by
  intro _
  simp [encode, encodePayload, paylen]

end Sys2Proof.Laws.PacketLength
end

