-- ==== Sys2Proof/Machine/Assembly.lean ====
section
/-! DEFINITION. The assembly form of programs, one command per line (spec/30_encoding.md R98, R99): from text to lines. -/

namespace Sys2Proof.Machine

/-- A space or a tab. -/
def isBlank (c : Char) : Bool := c = ' ' || c = '\t'

/-- Text without the blanks before and after it. -/
def trim (cs : List Char) : List Char := ((cs.dropWhile isBlank).reverse.dropWhile isBlank).reverse

/-- Text up to its comment: "from `;` to the end of the line" (R98), but for a `;` between quotation marks. -/
def dropComment : Bool → List Char → List Char
  | _, [] => []
  | quoted, c :: cs =>
    if c = '"' then c :: dropComment (!quoted) cs
    else if c = ';' ∧ quoted = false then []
    else c :: dropComment quoted cs

/-- The operands of a line: its text cut at the commas that are not between quotation marks, each piece trimmed. -/
def splitOperands : Bool → List Char → List Char → List (List Char)
  | _, piece, [] => [trim piece.reverse]
  | quoted, piece, c :: cs =>
    if c = '"' then splitOperands (!quoted) (c :: piece) cs
    else if c = ',' ∧ quoted = false then trim piece.reverse :: splitOperands quoted [] cs
    else splitOperands quoted (c :: piece) cs

/-- A decimal digit. -/
def decDigit (c : Char) : Option Nat :=
  if 48 ≤ c.toNat ∧ c.toNat ≤ 57 then some (c.toNat - 48) else none

/-- A hexadecimal digit, of either case. -/
def hexDigit (c : Char) : Option Nat :=
  if 97 ≤ c.toNat ∧ c.toNat ≤ 102 then some (c.toNat - 87)
  else if 65 ≤ c.toNat ∧ c.toNat ≤ 70 then some (c.toNat - 55)
  else decDigit c

/-- The number that digits of a base write, given the number the ones before them write. -/
def readDigits (base : Nat) (digit : Char → Option Nat) : Nat → List Char → Option Nat
  | acc, [] => some acc
  | acc, c :: cs =>
    match digit c with
    | some d => readDigits base digit (acc * base + d) cs
    | none => none

/-- `<dlen>`, `<outlen>`: a decimal number that an 8-bit field holds (R98, R83, R86). A greater number has no encoding, and neither
R98 nor R180 says what becomes of such a line: that it is no line, for INIT, INIT_KEY, FINAL, HASH and KEYED_HASH alike, is the
model's DESIGN CHOICE (notes/assumptions/25.md). -/
def readLength (cs : List Char) : Option Byte :=
  if cs = [] then none
  else
    match readDigits 10 decDigit 0 cs with
    | some n => if n < 256 then some (BitVec.ofNat 8 n) else none
    | none => none

/-- Hexadecimal digits, two per byte, in stream order (R98, R9). -/
def readHex : List Char → Option (List Byte)
  | [] => some []
  | [_] => none
  | c :: d :: cs =>
    match hexDigit c, hexDigit d, readHex cs with
    | some hi, some lo, some bs => some (BitVec.ofNat 8 (16 * hi + lo) :: bs)
    | _, _, _ => none

/-- ASCII text up to the closing quotation mark, which ends the operand (R98). That text of no characters, `""`, is a second
spelling of no bytes beside `<empty>`, and that the text may hold every character of code 0 to 127 but a quotation mark and the
end of the line, is the model's DESIGN CHOICE (notes/assumptions/20.md). -/
def readText : List Char → Option (List Byte)
  | [] => none
  | ['"'] => some []
  | c :: cs =>
    if c = '"' ∨ 128 ≤ c.toNat then none
    else
      match readText cs with
      | some bs => some (BitVec.ofNat 8 c.toNat :: bs)
      | none => none

/-- The message bytes of UPDATE and the input of HASH and KEYED_HASH: `<empty>`, quoted text, or hexadecimal digits (R98). No
text at all is no operand (quoted text of no characters is one: `readText`), and R180 and R181 do not say how an input is written: both are the model's DESIGN CHOICE
(notes/assumptions/20.md). -/
def readBytes : List Char → Option (List Byte)
  | [] => none
  | ['<', 'e', 'm', 'p', 't', 'y', '>'] => some []
  | '"' :: cs => readText cs
  | cs => readHex cs

/-- The text after a name and `=`, if the operand begins with them. -/
def named (name : List Char) (operand : List Char) : Option (List Char) :=
  if (name ++ ['=']).isPrefixOf operand then some (operand.drop (name.length + 1)) else none

/-- `salt=` or `personal=` with 32 hexadecimal digits (R98). -/
def readNamed16 (name : List Char) (operand : List Char) : Option Bytes16 :=
  match named name operand with
  | some cs =>
    match readHex cs with
    | some bs => if bs.length = 16 then some (takeVec 16 bs) else none
    | none => none
  | none => none

/-- The optional operands of INIT and INIT_KEY, in their order: `[, salt=...] [, personal=...]` (R98). -/
def readOptional : List (List Char) → Option (Option Bytes16 × Option Bytes16)
  | [] => some (none, none)
  | [a] =>
    match readNamed16 "salt".toList a, readNamed16 "personal".toList a with
    | some s, _ => some (some s, none)
    | none, some p => some (none, some p)
    | none, none => none
  | [a, b] =>
    match readNamed16 "salt".toList a, readNamed16 "personal".toList b with
    | some s, some p => some (some s, some p)
    | _, _ => none
  | _ => none

/-- `key=` with `2*KLEN` hexadecimal digits, none of them for an empty key (R98), which `key=<empty>` writes too
(spec/95_test_vectors.md P4). That both spellings are taken and quoted text is not is the model's DESIGN CHOICE
(notes/assumptions/20.md). -/
def readKey (operand : List Char) : Option (List Byte) :=
  match named "key".toList operand with
  | some cs => if cs = "<empty>".toList then some [] else readHex cs
  | none => none

/-- `0x` and sixteen hexadecimal digits (R98). -/
def readWord : List Char → Option Word
  | '0' :: 'x' :: cs =>
    if cs.length = 16 then
      match readDigits 16 hexDigit 0 cs with
      | some n => some (BitVec.ofNat 64 n)
      | none => none
    else none
  | _ => none

/-- A command that one packet can carry, as a line: `KLEN` is the number of bytes written (R98, R84). That an INIT_KEY with more
key bytes than `KLEN` counts is no line is the model's DESIGN CHOICE (notes/assumptions/25.md). -/
def commandLine (i : Instr) : Option AsmLine := if i.wf then some (.command i) else none

/-- `INIT <dlen> [, salt=...] [, personal=...]`. -/
def readInit : List (List Char) → Option AsmLine
  | d :: opts =>
    match readLength d, readOptional opts with
    | some dlen, some (s, p) => commandLine (.init dlen s p)
    | _, _ => none
  | [] => none

/-- `INIT_KEY <dlen>, key=... [, salt=...] [, personal=...]`. -/
def readInitKey : List (List Char) → Option AsmLine
  | d :: k :: opts =>
    match readLength d, readKey k, readOptional opts with
    | some dlen, some key, some (s, p) => commandLine (.initKey dlen key s p)
    | _, _, _ => none
  | _ => none

/-- `UPDATE <bytes>`: `LEN` is the number of bytes written (R98), and a chunk longer than `LEN` can count is sent as several UPDATE
commands (R85), cut as `hostChunks` says. -/
def readUpdate : List (List Char) → Option (List AsmLine)
  | [b] =>
    match readBytes b with
    | some bytes => some ((hostChunks bytes.length bytes).map fun chunk => .command (.update chunk))
    | none => none
  | _ => none

/-- `FINAL <outlen>`. -/
def readFinal : List (List Char) → Option AsmLine
  | [d] =>
    match readLength d with
    | some olen => commandLine (.final olen)
    | none => none
  | _ => none

/-- `.word 0x<16 hex digits> [, <hex digits>]`: raw, whether the packet is whole or not. That the payload may have no digits after
its comma and is never written `<empty>` is the model's DESIGN CHOICE (notes/assumptions/20.md). -/
def readRawWord : List (List Char) → Option AsmLine
  | [w] =>
    match readWord w with
    | some word => some (.word word [])
    | none => none
  | [w, b] =>
    match readWord w, readHex b with
    | some word, some payload => some (.word word payload)
    | _, _ => none
  | _ => none

/-- `HASH <outlen>, <input>` (R180); for an `outlen` above 255 see `readLength`. -/
def readHash : List (List Char) → Option AsmLine
  | [d, b] =>
    match readLength d, readBytes b with
    | some outlen, some input => some (.hash outlen input)
    | _, _ => none
  | _ => none

/-- `KEYED_HASH <outlen>, key=<key>, <input>` (R181); for an `outlen` above 255 see `readLength`. -/
def readKeyedHash : List (List Char) → Option AsmLine
  | [d, k, b] =>
    match readLength d, readKey k, readBytes b with
    | some outlen, some key, some input => some (.keyedHash outlen key input)
    | _, _, _ => none
  | _ => none

/-- One line of text: no program line where there is only a comment or nothing, several where an UPDATE is split; `none` where the
text is no line (R98, R99). -/
def readLine (cs : List Char) : Option (List AsmLine) :=
  let text := trim (dropComment false cs)
  let name := text.takeWhile fun c => !isBlank c
  let operands := splitOperands false [] (text.dropWhile fun c => !isBlank c)
  let line : Option AsmLine :=
    if name = "INIT".toList then readInit operands
    else if name = "INIT_KEY".toList then readInitKey operands
    else if name = "FINAL".toList then readFinal operands
    else if name = ".word".toList then readRawWord operands
    else if name = "HASH".toList then readHash operands
    else if name = "KEYED_HASH".toList then readKeyedHash operands
    else none
  if text = [] then some []
  else if name = "UPDATE".toList then readUpdate operands
  else line.map fun l => [l]

/-- The text of a program cut into lines. -/
def splitLines : List Char → List Char → List (List Char)
  | piece, [] => [piece.reverse]
  | piece, c :: cs => if c = '\n' then piece.reverse :: splitLines [] cs else splitLines (c :: piece) cs

/-- The lines of a program, if every line of its text is one (R98). -/
def readLines : List (List Char) → Option (List AsmLine)
  | [] => some []
  | l :: ls =>
    match readLine l, readLines ls with
    | some a, some rest => some (a ++ rest)
    | _, _ => none

/-- A program from its text (R98). -/
def readProgram (text : String) : Option (List AsmLine) := readLines (splitLines [] text.toList)

end Sys2Proof.Machine
end

