-- ==== Sys2Proof/Tests/Slice0.lean ====
section
/-! SUPPORT. The model's own tests. Expected values are the vectors of spec/95_test_vectors.md, named in each comment. After them,
a witness for the hypotheses of every statement that has some, each clause with a value at the edge of its range. -/

namespace Sys2Proof.Tests

open Sys2Proof Sys2Proof.Machine

/-! ### Helpers -/

/-- Reset, but in phase `p` with `n` bytes in the buffer. -/
def at' (p : Phase) (n : Fin 257) : State := { State.reset with phase := p, buflen := n }

/-- Reset with one packet on the stream. -/
def sent (p : Packet) (s : State) : State := { s with input := sendPacket p }

/-- The next state of an outcome, looked at through `f`. -/
def after {α : Type} (f : State → α) : Host.Outcome State Fault Refusal → Option α
  | .next t => some (f t)
  | _ => none

theorem next_of_after {o : Host.Outcome State Fault Refusal} (h : (after (fun _ => ()) o).isSome = true) :
    ∃ t, o = .next t := by
  cases o with
  | next t => exact ⟨t, rfl⟩
  | fault r => exact absurd h (by simp [after])
  | refused r => exact absurd h (by simp [after])

/-- `msg(n)`: byte `i` is `i mod 256`. -/
def msg (n : Nat) : List Byte := (List.range n).map (BitVec.ofNat 8)

/-- The salt `a0 a1 ... af`. -/
def saltA : Bytes16 := #v[0xa0, 0xa1, 0xa2, 0xa3, 0xa4, 0xa5, 0xa6, 0xa7, 0xa8, 0xa9, 0xaa, 0xab, 0xac, 0xad, 0xae, 0xaf]

/-- The personalization `c0 c1 ... cf`. -/
def personC : Bytes16 := #v[0xc0, 0xc1, 0xc2, 0xc3, 0xc4, 0xc5, 0xc6, 0xc7, 0xc8, 0xc9, 0xca, 0xcb, 0xcc, 0xcd, 0xce, 0xcf]

/-! ### WellFormed: each check refuses an ill-formed term -/

/-- `KLEN` is 8 bits (R84). -/
theorem test_wf_key_too_long : (Instr.initKey 64 (List.replicate 256 0) none none).wf = false := by
  simp only [Instr.wf, List.length_replicate]
  decide

/-- `LEN` is 56 bits (R85). -/
theorem test_wf_chunk_too_long : (Instr.update (List.replicate (2 ^ 56) 0)).wf = false := by
  simp only [Instr.wf, List.length_replicate]
  decide

/-- V-X11: the longest chunk a packet can carry is well-formed. -/
theorem test_wf_longest_chunk : (Instr.update (List.replicate (2 ^ 56 - 1) 0)).wf = true := by
  simp only [Instr.wf, List.length_replicate]
  decide

/-! ### Decoding: words written out bit by bit from the formats of R82 to R86 -/

/-- V-X4 with V-P6's operands: opcode 0x01, DLEN 64, zeros 47:2, P and S set; payload salt then personal. -/
theorem test_decode_init :
    decode ⟨0b00000001_01000000_0000000000000000000000000000000000000000000000_1_1,
      saltA.toList ++ personC.toList⟩ = .instr (.init 64 (some saltA) (some personC)) := by decide

/-- V-X3: P alone: the payload is the personalization. -/
theorem test_decode_init_personal :
    decode ⟨0b00000001_01000000_0000000000000000000000000000000000000000000000_1_0, personC.toList⟩ =
      .instr (.init 64 none (some personC)) := by decide

/-- V-X6: opcode 0x02, DLEN 48, KLEN 3, zeros 39:2, P clear, S set; payload key then salt. -/
theorem test_decode_initKey :
    decode ⟨0b00000010_00110000_00000011_00000000000000000000000000000000000000_0_1,
      [0x6b, 0x65, 0x79] ++ saltA.toList⟩ = .instr (.initKey 48 [0x6b, 0x65, 0x79] (some saltA) none) := by decide

/-- V-X9: opcode 0x03, LEN 3. -/
theorem test_decode_update :
    decode ⟨0b00000011_00000000000000000000000000000000000000000000000000000011, [0x61, 0x62, 0x63]⟩ =
      .instr (.update [0x61, 0x62, 0x63]) := by decide

/-- V-X13: opcode 0x04, OLEN 1, zeros 47:0. -/
theorem test_decode_final :
    decode ⟨0b00000100_00000001_000000000000000000000000000000000000000000000000, []⟩ = .instr (.final 1) := by decide

/-- V-X14, V-X15: reserved opcodes (R92). -/
theorem test_decode_reserved_opcode :
    decode ⟨0x0000000000000000, []⟩ = .illegal .reservedOpcode ∧
    decode ⟨0x0540000000000000, []⟩ = .illegal .reservedOpcode := by decide

/-- V-E27, V-E29, V-E32: a reserved bit of each format (R93). -/
theorem test_decode_reserved_bit :
    decode ⟨0x0140000000000004, []⟩ = .illegal .reservedBits ∧
    decode ⟨0x0240028000000000, [0x22, 0x22]⟩ = .illegal .reservedBits ∧
    decode ⟨0x0440000000000001, []⟩ = .illegal .reservedBits := by decide

/-- V-X7, V-X11, V-E26, V-E31: payload lengths, whatever the reserved bits hold (R87). -/
theorem test_paylen :
    paylen 0x0201400000000003 = 96 ∧ paylen 0x03ffffffffffffff = 72057594037927935 ∧ paylen 0x0000000000000010 = 0 ∧
    paylen 0x0140000000000007 = 32 := by decide

/-- V-X5's first bytes: the word is sent least significant byte first (R81). -/
theorem test_packet_bytes :
    (encode (.initKey 64 (msg 64) none none)).bytes.take 10 = [0x00, 0x00, 0x00, 0x00, 0x00, 0x40, 0x40, 0x02, 0x00, 0x01] := by
  decide

/-- The rows of spec/opcode_table.json, their `match` alone: each row's command, the operands zero. -/
theorem test_table_rows :
    decodeTableWord 64 0x0100000000000000 = some (.init 0 none none) ∧
    decodeTableWord 64 0x0200000000000000 = some (.initKey 0 [] none none) ∧
    decodeTableWord 64 0x0300000000000000 = some (.update []) ∧
    decodeTableWord 64 0x0400000000000000 = some (.final 0) := by decide

/-- P4 steps 1, 2 and V-E12, V-E5: each row's word runs as the first command after reset, here with its error. -/
theorem test_table_rows_run :
    after State.responseStream (step (State.reset.withFetchWord 64 0x0100000000000000)) = some [0x01] ∧
    after State.responseStream (step (State.reset.withFetchWord 64 0x0200000000000000)) = some [0x01] ∧
    after State.responseStream (step (State.reset.withFetchWord 64 0x0300000000000000)) = some [0x04] ∧
    after State.responseStream (step (State.reset.withFetchWord 64 0x0400000000000000)) = some [0x04] := by decide

/-! ### Operations -/

/-- V-W6, V-W12. -/
theorem test_codec :
    load64 #v[0xef, 0xcd, 0xab, 0x89, 0x67, 0x45, 0x23, 0x01] = 0x0123456789abcdef ∧
    store64 0x0d4d1c983fa580ba = #v[0xba, 0x80, 0xa5, 0x3f, 0x98, 0x1c, 0x4d, 0x0d] := by decide

/-- V-R7, V-R9. -/
theorem test_rotr :
    rotr 0x0123456789abcdef 24 = 0xabcdef0123456789 ∧ rotr 0x0123456789abcdef 63 = 0x02468acf13579bde := by decide

/-- V-G5: the order of the statements of G. -/
theorem test_mixG :
    let v : Words16 := #v[0x0123456789abcdef, 0xfedcba9876543210, 0x0f1e2d3c4b5a6978, 0x8796a5b4c3d2e1f0,
      0, 0, 0, 0, 0, 0, 0, 0, 0, 0, 0, 0]
    mixG v 0 1 2 3 0x1111111111111111 0x2222222222222222 =
      #v[0xe95f405271d7b7c9, 0xa6c4a94d586303f4, 0xe54e59b99295056d, 0x036c3b9cb0b2e750,
        0, 0, 0, 0, 0, 0, 0, 0, 0, 0, 0, 0] := by decide +kernel

/-- V-T7, V-T8: the carry into a nonzero high word, and the wrap at 2^128. -/
theorem test_incCounter :
    (let s := incCounter 128 { State.reset with t0 := 0xffffffffffffff9b, t1 := 5 }
     (s.t0, s.t1) = (0x000000000000001b, 6)) ∧
    (let s := incCounter 1 { State.reset with t0 := 0xffffffffffffffff, t1 := 0xffffffffffffffff }
     (s.t0, s.t1) = (0, 0)) := by decide

/-- V-C1 after round 0 and round 1, its corner words: the index tuples and the first two SIGMA rows. -/
theorem test_rounds :
    let h := IV.set 0 0x6a09e667f2bdc948
    let v := workVector h 3 0 true false
    let m := messageWords (takeVec 128 [0x61, 0x62, 0x63])
    let v1 := rounds m 1 0 v
    let v2 := rounds m 2 0 v
    (v1[0], v1[7], v1[8], v1[15]) = (0x86b7c1568029bb79, 0x595cb8a9a1aca66c, 0xbec3ae837eac4887, 0x2318a24e2140fc64) ∧
    (v2[0], v2[7], v2[8], v2[15]) = (0x53281e83806010f2, 0xc6a56a51cb89c595, 0x224e6a3369224f96, 0x572d17effdd37358) := by
  decide +kernel

/-- V-D128: a block of 128 different bytes, compressed as the last one: every entry of SIGMA counts. -/
theorem test_compress :
    (serialize (compress (IV.set 0 0x6a09e667f2bdc948) (takeVec 128 (msg 128)) 128 0 true false)).take 16 =
      [0x23, 0x19, 0xe3, 0x78, 0x9c, 0x47, 0xe2, 0xda, 0xa5, 0xfe, 0x80, 0x7f, 0x61, 0xbe, 0xc2, 0xa1] := by
  decide +kernel

/-- BufWrite then BufRead over the top of block 0, and a zero written back leaves no cell (R51, R52). -/
theorem test_buffer :
    (Memory.bufWrite [] 126 [0x11, 0x22, 0x33]).bufRead 127 3 = [0x22, 0x33, 0x00] ∧
    (Memory.bufWrite [(7, 0x44)] 7 [0x00]) = [] := by decide

/-! ### The commands, one step each -/

/-- V-P6: the words of `h` that INIT with salt and personalization seeds. -/
theorem test_init_seed :
    after (fun t => (t.h[0], t.h[1], t.h[4], t.h[5], t.h[6], t.h[7])) (exec (.init 64 (some saltA) (some personC)) State.reset) =
      some (0x6a09e667f2bdc948, 0xbb67ae8584caa73b, 0xf6a8f7db0e442371, 0x34abc5208094c5b7, 0xd8451c6f38837cab,
        0x942e00d5d8b4e8b1) := by decide +kernel

/-- P4 step 23: a failed INIT in mid-session changes nothing but the response (V-E8). -/
theorem test_init_fails :
    after (fun t => decide (t = (at' .absorbing 3).answered (.error .invalidParameter))) (exec (.init 0 none none) (at' .absorbing 3)) =
      some true := by decide

/-- V-P8: the seed of a keyed session, its key block and fill level, and no compression. -/
theorem test_initKey_state :
    after (fun t => (t.h[0], t.buf.bufRead 0 4, t.buflen.val, t.events.length, t.phase))
      (exec (.initKey 48 [0x6b, 0x65, 0x79] (some saltA) none) (at' .finalized 9)) =
      some (0x6a09e667f2bdca38, [0x6b, 0x65, 0x79, 0x00], 128, 0, .absorbing) := by decide +kernel

/-- V-E10, V-E12: `InvalidKey`, and `InvalidParameter` before it. -/
theorem test_initKey_errors :
    after State.responseStream (exec (.initKey 64 [] none none) State.reset) = some [0x02] ∧
    after State.responseStream (exec (.initKey 0 [] none none) State.reset) = some [0x01] := by decide

/-- S3, row "256 + 44", the second UPDATE: one compression, with T = 128, and the 44 bytes from `buf[128]` on. -/
theorem test_update_overflows :
    (after (fun t => decide (t.t0 = 128 ∧ t.buflen.val = 172 ∧ t.buf.read 128 = 0x00 ∧ t.buf.read 171 = 0x2b ∧
      t.events.map (fun e => (e.t0, e.f0)) = [(128, false)])) (exec (.update (msg 44)) (at' .absorbing 256))).getD false = true := by
  decide +kernel

/-- V-D256, its last two bytes: they exactly fill the buffer and compress nothing. -/
theorem test_update_fills :
    after (fun t => (t.buflen.val, t.events.length, t.buf.read 255)) (exec (.update [0xfe, 0xff]) (at' .absorbing 254)) =
      some (256, 0, 0xff) := by decide

/-- P1 step 3: the digest of "abc", V-C1's twelve rounds and the serialization. -/
theorem test_final_digest :
    after State.responseStream (exec (.final 64) { at' .absorbing 3 with
      h := IV.set 0 0x6a09e667f2bdc948, buf := [(0, 0x61), (1, 0x62), (2, 0x63)] }) =
    some [0x00,
      0xba, 0x80, 0xa5, 0x3f, 0x98, 0x1c, 0x4d, 0x0d, 0x6a, 0x27, 0x97, 0xb6, 0x9f, 0x12, 0xf6, 0xe9,
      0x4c, 0x21, 0x2f, 0x14, 0x68, 0x5a, 0xc4, 0xb7, 0x4b, 0x12, 0xbb, 0x6f, 0xdb, 0xff, 0xa2, 0xd1,
      0x7d, 0x87, 0xc5, 0x39, 0x2a, 0xab, 0x79, 0x2d, 0xc2, 0x52, 0xd5, 0xde, 0x45, 0x33, 0xcc, 0x95,
      0x18, 0xd3, 0x8a, 0xa8, 0xdb, 0xf1, 0x92, 0x5a, 0xb9, 0x23, 0x86, 0xed, 0xd4, 0x00, 0x99, 0x23] := by
  decide +kernel

/-- V-E20, V-E17: the phase check comes before the operand check. -/
theorem test_final_errors :
    after State.responseStream (exec (.final 0) (at' .finalized 0)) = some [0x03] ∧
    after State.responseStream (exec (.final 65) (at' .absorbing 5)) = some [0x01] := by decide

/-- P4 step 19: an illegal word's payload is consumed before the answer. -/
theorem test_illegal_consumes_payload :
    after (fun t => (t.input, t.responseStream)) (step (sent ⟨0x0240028000000000, [0x22, 0x22]⟩ (at' .finalized 0))) =
      some ([], [0x05]) := by decide

/-- R220: a reset in a partly received packet drops it, with no response. -/
theorem test_reset_mid_packet :
    after (fun t => (t.phase, t.input, t.responses))
      (step { at' .absorbing 3 with input := [.byte 0x03, .reset, .byte 0x07] }) = some (.idle, [.byte 0x07], []) := by decide

/-! ### Programs as text -/

/-- P4 steps 1, 6 (shortened) and 18, P1 as a pseudo-instruction, and comments (R98, R99). -/
theorem test_program_text :
    readProgram "UPDATE <empty>\nINIT_KEY 64, key=1111, salt=a0a1a2a3a4a5a6a7a8a9aaabacadaeaf ; two bytes\n.word 0x0140000000000004\n\nHASH 64, \"abc\"" =
      some [.command (.update []), .command (.initKey 64 [0x11, 0x11] (some saltA) none), .word 0x0140000000000004 [],
        .hash 64 [0x61, 0x62, 0x63]] := by decide +kernel

/-- Lines that are none: a length no field holds, an odd number of digits, the optional operands out of order (R98). -/
theorem test_program_text_rejected :
    readProgram "FINAL 256" = none ∧ readProgram "UPDATE 123" = none ∧
    readProgram "INIT 64, personal=00000000000000000000000000000000, salt=00000000000000000000000000000000" = none := by
  decide +kernel

/-- An empty key in both spellings (P4 step 5, R98), and quoted text after `key=`, which is no key. -/
theorem test_program_text_keys :
    readProgram "INIT_KEY 64, key=<empty>\nINIT_KEY 64, key=" =
      some [.command (.initKey 64 [] none none), .command (.initKey 64 [] none none)] ∧
    readProgram "INIT_KEY 64, key=\"abc\"" = none := by decide +kernel

/-- No bytes in both spellings (R98's `<empty>`, and text of no characters), each one UPDATE of the empty chunk. -/
theorem test_program_text_empty :
    readProgram "UPDATE <empty>" = some [.command (.update [])] ∧ readProgram "UPDATE \"\"" = some [.command (.update [])] := by
  decide +kernel

/-- A key that `KLEN` cannot hold sends no packet; otherwise three packets (R181). -/
theorem test_keyed_hash_packets :
    (AsmLine.keyedHash 64 (msg 256) []).packets = [] ∧ (AsmLine.keyedHash 64 [0x01] [0x07]).packets.length = 3 := by
  decide +kernel

/-! ### Witnesses: states and operands that meet the hypotheses of the statements -/

theorem witness_mixG : ([0, 4, 8, 12] : List (Fin 16)).Nodup ∧ ([15, 0, 5, 10] : List (Fin 16)).Nodup := by decide

theorem witness_halfRound : ([3, 1, 0, 2] : List (Fin 8)).Perm [0, 1, 2, 3] ∧ ([7, 4, 6, 5] : List (Fin 8)).Perm [4, 5, 6, 7] := by
  decide

theorem witness_paramBlock : ((0 < 1 ∨ 64 < 0 ∨ 64 < 0) ∧ (65 < 1 ∨ 64 < 65 ∨ 64 < 0) ∧ (64 < 1 ∨ 64 < 64 ∨ 64 < 65)) ∧
    (1 ≤ 1 ∧ 1 ≤ 64 ∧ 64 ≤ 64) ∧ 1 ≤ 64 ∧ 64 ≤ 64 ∧ 0 ≤ 64 := by decide

/-- For SessionStartSeedsEveryWord: the edges of the legal lengths, and what lies just outside. -/
theorem witness_legal_operands : legalLength 1 ∧ legalLength 64 ∧ ¬ legalLength 0 ∧ ¬ legalLength 65 ∧ ¬ legalLength 255 := by
  decide

/-- For the same, and every statement about keys: the edges of the legal key lengths. -/
theorem witness_legal_keys : legalKey [0x01] ∧ legalKey (msg 64) ∧ ¬ legalKey [] ∧ 64 < (msg 65).length ∧ ([] : List Byte).length = 0 := by
  decide

theorem witness_lengthsSeparate : (1 ≤ 1 ∧ 1 ≤ 64 ∧ 1 ≤ 64 ∧ 64 ≤ 64 ∧ 0 ≤ 64 ∧ 64 ≤ 64) ∧ (1 ≠ 64 ∨ 0 ≠ 64) := by decide

theorem witness_counter : 128 < 2 ^ 64 ∧ 2 ^ 64 - 1 < 2 ^ 64 ∧
    (incCounter 128 { State.reset with t0 := 0xffffffffffffff80 }).t1 ≠ State.reset.t1 := by decide

theorem witness_buffer : Memory.wf [(3, 0x05)] = true ∧ 255 + ([0x07] : List Byte).length ≤ 256 ∧ 256 + ([] : List Byte).length ≤ 256 ∧
    0 + 256 ≤ 256 := by decide

theorem witness_initResult : legalLength 1 ∧ ¬ legalLength 0 ∧ ¬ legalLength 65 := by decide

theorem witness_initKeyResult : (legalLength 64 ∧ legalKey (msg 64)) ∧ ¬ legalLength 65 ∧ (legalLength 64 ∧ 64 < (msg 65).length) ∧
    legalLength 64 ∧ ([] : List Byte).length = 0 := by decide

theorem witness_updateFits : (at' .fresh 255).phase.live ∧ (at' .fresh 255).buf.wf = true ∧
    (at' .fresh 255).buflen.val + ([0x07] : List Byte).length ≤ 256 ∧
    (at' .absorbing 256).phase.live ∧ (at' .absorbing 256).buflen.val + ([] : List Byte).length ≤ 256 := by decide

theorem witness_updateOverflows : (at' .absorbing 256).phase.live ∧ (at' .absorbing 256).buf.wf = true ∧
    256 < (at' .absorbing 256).buflen.val + ([0x07] : List Byte).length := by decide

theorem witness_updateResult : (at' .fresh 0).phase.live ∧ (at' .fresh 0).buf.wf = true ∧ (at' .absorbing 256).phase.live ∧
    (at' .absorbing 256).buf.wf = true := by decide

theorem witness_finalOne : (at' .fresh 0).phase.live ∧ (at' .fresh 0).buf.wf = true ∧ legalLength 1 ∧ (at' .fresh 0).buflen.val ≤ 128 ∧
    (at' .absorbing 128).phase.live ∧ (at' .absorbing 128).buflen.val ≤ 128 := by decide

theorem witness_finalTwo : (at' .absorbing 129).phase.live ∧ (at' .absorbing 129).buf.wf = true ∧ legalLength 64 ∧
    128 < (at' .absorbing 129).buflen.val ∧ 128 < (at' .absorbing 256).buflen.val := by decide

theorem witness_errorPriority : wholePacket ⟨0x0240410000000000, msg 65⟩ ∧ wholePacket ⟨0x0440800000000000, []⟩ ∧
    expectedError 0x0240410000000000 .idle = some .invalidParameter ∧ expectedError 0x0440800000000000 .idle = some .illegalCommand ∧
    expectedError 0x0440000000000000 .fresh = none := by decide

theorem witness_errorsChangeNothing :
    fetch (sent ⟨0x0300000000000002, [0x05, 0x06]⟩ State.reset).input = .packet ⟨0x0300000000000002, [0x05, 0x06]⟩ [] ∧
    after (fun t => decide (t.responses = [.error .noSession])) (step (sent ⟨0x0300000000000002, [0x05, 0x06]⟩ State.reset)) =
      some true := by decide

theorem witness_onlyFinalReturnsData :
    after (fun t => decide (t.responses = [.ok []])) (exec (.update []) (at' .fresh 0)) = some true ∧
    after (fun t => decide (t.responses = [.error .invalidParameter])) (exec (.final 0) (at' .fresh 0)) = some true ∧
    ∃ t d, exec (.final 64) (at' .fresh 0) = .next t ∧ t.responses = (at' .fresh 0).responses ++ [.ok d] :=
  ⟨by decide, by decide, _, _, rfl, rfl⟩

theorem witness_phaseTransitions :
    after State.phase (exec (.init 64 none none) (at' .finalized 0)) = some .fresh ∧
    after State.responses (exec (.update [0x07]) (at' .idle 0)) = some [.error .noSession] ∧
    after State.responses (exec (.final 64) (at' .finalized 0)) = some [.error .useAfterFinalize] := by decide +kernel

theorem witness_useAfterFinalize : (at' .finalized 3).phase = .finalized ∧
    after State.phase (exec (.init 64 none none) (at' .finalized 3)) = some .fresh := by decide +kernel

theorem witness_noSession : State.reset.phase = .idle := by decide

theorem witness_newSession : legalLength 64 ∧ legalKey [0x01] ∧ (at' .absorbing 200).input = State.reset.input ∧
    (at' .absorbing 200).responses = State.reset.responses ∧ (at' .absorbing 200).resets = State.reset.resets := by decide

/-- Two states that differ in a byte at `buflen`, and two that differ in everything unreadable in Idle. -/
theorem witness_deadState :
    (({ at' .absorbing 3 with buf := [(3, 0x55)] } : State).Agree (at' .absorbing 3) ∧
      ({ at' .absorbing 3 with buf := [(3, 0x55)] } : State).buf.wf = true ∧ (at' .absorbing 3).buf.wf = true) ∧
    ({ State.reset with t0 := 7, f0 := true, buflen := 256 } : State).Agree State.reset := by
  refine ⟨⟨⟨rfl, rfl, rfl, rfl, rfl, fun _ => ⟨rfl, rfl, rfl, rfl, rfl, rfl⟩, fun _ => rfl, fun _ a ha => ?_⟩, rfl, rfl⟩,
    ⟨rfl, rfl, rfl, rfl, rfl, ?_, ?_, ?_⟩⟩
  · have h : a < 3 := ha
    simp [Memory.read, at', State.reset, show ¬ 3 = a by omega]
  all_goals intro h; exact absurd h (by decide)

theorem witness_freshAndAbsorbing : (at' .fresh 0).phase = .fresh := by decide

theorem witness_stepRunsDecodedPacket :
    (wholePacket ⟨0x0300000000000002, [0x05, 0x06]⟩ ∧ noResetDuring [.reset] ∧
      decode ⟨0x0300000000000002, [0x05, 0x06]⟩ = .instr (.update [0x05, 0x06])) ∧
    wholePacket ⟨0x0240028000000000, [0x22, 0x22]⟩ ∧ decode ⟨0x0240028000000000, [0x22, 0x22]⟩ = .illegal .reservedBits := by decide

theorem witness_stepRunsEncodedCommand : (Instr.initKey 64 (msg 255) (some saltA) none).wf = true ∧ noResetDuring [] ∧
    (sent (encode (.final 64)) State.reset).input = sendPacket (encode (.final 64)) ++ [] := by decide +kernel

theorem witness_streamRuns : (∀ i, i ∈ [Instr.init 64 none none, .update [0x07], .final 64] → i.wf = true) ∧ noResetDuring [.reset] ∧
    ({ State.reset with input := programEvents ([Instr.final 64].map .command) ++ [.reset] } : State).input =
      programEvents ([Instr.final 64].map .command) ++ [.reset] := by
  exact ⟨by decide, by decide, rfl⟩

theorem witness_resetLeavesIdle :
    framePacket [] = none ∧ framePacket [0x01, 0, 0, 0, 0, 0, 0, 0x03] = none ∧ wholePacket ⟨0x0300000000000001, [0x07]⟩ := by decide

theorem witness_incompletePacket :
    framePacket [] = none ∧ framePacket [0x01, 0, 0, 0, 0, 0, 0] = none ∧ framePacket [0x02, 0, 0, 0, 0, 0, 0, 0x03, 0x07] = none := by
  decide

theorem witness_fetchWord : decodeTableWord 72 (0x0300000000000001 + 0x07 * 2 ^ 64) = some (.update [0x07]) := by decide

theorem witness_decodeEncode : (Instr.init 255 (some saltA) (some personC)).wf = true ∧ (Instr.initKey 0 (msg 255) none none).wf = true ∧
    (Instr.update []).wf = true ∧ (Instr.final 0).wf = true := by decide +kernel

theorem witness_encodeDecode : wholePacket ⟨0x0300000000000001, [0x07]⟩ ∧
    decode ⟨0x0300000000000001, [0x07]⟩ = .instr (.update [0x07]) := by decide

theorem witness_reservedOpcode : opc 0x0000000000000010 = 0x00 ∧ 5 ≤ (opc 0x0500000000000000).toNat ∧
    5 ≤ (opc 0xff00000000000000).toNat := by decide

theorem witness_reservedBit :
    (wholePacket ⟨0x0140800000000000, []⟩ ∧ opc 0x0140800000000000 = 0x01 ∧ (0x0140800000000000 : Word).extractLsb' 2 46 ≠ 0) ∧
    (wholePacket ⟨0x0240008000000000, []⟩ ∧ opc 0x0240008000000000 = 0x02 ∧ (0x0240008000000000 : Word).extractLsb' 2 38 ≠ 0) ∧
    (wholePacket ⟨0x0440000000000001, []⟩ ∧ opc 0x0440000000000001 = 0x04 ∧ (0x0440000000000001 : Word).extractLsb' 0 48 ≠ 0) ∧
    noResetDuring [] := by decide

/-- A state in mid-session, one block behind, that meets the invariant and has a next step: the empty UPDATE. -/
theorem witness_stepKeepsInvariant :
    let e : CompressEvent := { hIn := IV, block := Vector.replicate 128 0, t0 := 128, t1 := 0, f0 := false, f1 := false, hOut := IV }
    let s : State := { at' .absorbing 129 with
      t0 := 128, events := [e], input := sendPacket (encode (.update [])) }
    s.Inv ∧ ∃ t, step s = .next t := by
  refine ⟨⟨rfl, rfl, ?_, ?_, ?_, ?_, ?_, ?_⟩, next_of_after (by decide)⟩
  · intro h; exact absurd h (by decide)
  · intro _; exact ⟨rfl, rfl⟩
  · intro _; rfl
  · intro _; decide
  · intro _ _; decide
  · intro h; exact absurd h (by decide)

/-- For SessionEqualsOneShot and KeyedSessionEqualsOneShot. -/
theorem witness_sessions : legalLength 1 ∧ legalLength 64 ∧ legalKey [0x01] := by decide

theorem witness_chunking : (at' .fresh 0).phase.live ∧ (at' .fresh 0).buf.wf = true ∧ legalLength 64 ∧
    (([[], [0x07]] : List (List Byte)) ≠ [] ∨ (at' .fresh 0).phase = .absorbing) ∧
    ((([] : List (List Byte)) ≠ [] ∨ (at' .absorbing 256).phase = .absorbing) ∧ (at' .absorbing 256).phase.live) := by decide

theorem witness_closedForm : (legalLength 64 ∧ legalLength 1 ∧ 0 < 2 ^ 128) ∧
    (Instr.init 64 none none = .init 64 none none ∧ 0 = ([] : List (List Byte)).flatten.length) ∧
    legalKey [0x01] ∧ 129 = 128 + ([[0x07]] : List (List Byte)).flatten.length := by decide

theorem witness_blockBoundary : legalLength 64 ∧ (msg 256).length ≤ 256 ∧ (msg 128).length = 128 ∧ (msg 129).length = 129 ∧
    (msg 257).length = 257 := by
  refine ⟨by decide, ?_, ?_, ?_, ?_⟩ <;> simp [msg]

theorem witness_repeatedSessions : legalLength 64 ∧ legalLength 1 ∧ legalKey [0x01] ∧
    (Instr.init 64 none none = .init 64 none none ∨ legalKey [] ∧ Instr.init 64 none none = .initKey 64 [] none none) := by decide

theorem witness_orderlyHost : State.reset.clean ∧ ({ State.reset with responses := [.ok [0x07]] } : State).clean ∧ legalLength 64 ∧
    legalKey [0x01] := by
  refine ⟨?_, ?_, by decide, by decide⟩
  · intro r h; simp [State.reset] at h
  · intro r h; exact ⟨[0x07], by simpa using h⟩

theorem witness_keyStays : legalLength 64 ∧ legalKey (msg 64) ∧ ([msg 100, msg 28] : List (List Byte)).flatten.length ≤ 128 := by
  decide +kernel

theorem witness_oneShotStops : ¬ legalLength 0 ∧ ¬ legalLength 65 ∧ (legalLength 64 ∧ 64 < (msg 65).length) ∧ legalLength 1 ∧
    256 ≤ (msg 256).length := by decide +kernel

theorem witness_oneShotAnswers : legalLength 1 ∧ legalLength 64 ∧ legalKey [0x01] ∧ legalKey (msg 64) := by decide

end Sys2Proof.Tests
end

section
/-! The errors of the four commands, how any command can end, and the phase it leaves (spec/10_state.md R29). -/

namespace Sys2Proof.Machine

@[simp] theorem State.answered_phase (s : State) (r : Response) : (s.answered r).phase = s.phase := rfl
@[simp] theorem State.answered_responses (s : State) (r : Response) :
    (s.answered r).responses = s.responses ++ [r] := rfl

/-! ### The errors of each command, in the order of its checks -/

theorem execInit_badLength {dlen : Byte} (hd : lengthLegal dlen.toNat = false) (salt personal : Option Bytes16) (s : State) :
    execInit dlen salt personal s = raise .invalidParameter s := by
  rw [execInit, if_pos hd]

theorem execInitKey_badLength {dlen : Byte} {key : List Byte}
    (h : lengthLegal dlen.toNat = false ∨ maxKeyLength < key.length) (salt personal : Option Bytes16) (s : State) :
    execInitKey dlen key salt personal s = raise .invalidParameter s := by
  rw [execInitKey]
  by_cases hd : lengthLegal dlen.toNat = false
  · rw [if_pos hd]
  · rw [if_neg hd, if_pos (h.resolve_left hd)]

theorem execInitKey_emptyKey {dlen : Byte} (hd : lengthLegal dlen.toNat = true) {key : List Byte} (h0 : key.length = 0)
    (salt personal : Option Bytes16) (s : State) : execInitKey dlen key salt personal s = raise .invalidKey s := by
  rw [execInitKey, if_neg (by simp [hd]), if_neg (by omega), if_pos h0]

theorem execUpdate_refused {s : State} {e : CmdError} (he : phaseError s.phase = some e) (bytes : List Byte) :
    execUpdate bytes s = raise e s := by
  rw [execUpdate, he]

theorem execFinal_refused {s : State} {e : CmdError} (he : phaseError s.phase = some e) (olen : Byte) :
    execFinal olen s = raise e s := by
  rw [execFinal, he]

theorem execFinal_badLength {s : State} (hs : s.phase.live) {olen : Byte} (ho : lengthLegal olen.toNat = false) :
    execFinal olen s = raise .invalidParameter s := by
  rw [execFinal, (phaseError_none_iff s.phase).mpr hs]
  exact if_pos ho

/-! ### Every command -/

/-- UPDATE and FINAL in a phase that refuses them, whatever their operands (R198). -/
theorem exec_of_phaseError {i : Instr} (hi : (∃ bytes, i = .update bytes) ∨ ∃ olen, i = .final olen) {s : State}
    {e : CmdError} (he : phaseError s.phase = some e) : exec i s = .next (s.answered (.error e)) := by
  obtain ⟨bytes, rfl⟩ | ⟨olen, rfl⟩ := hi
  · exact execUpdate_refused he bytes
  · exact execFinal_refused he olen

/-- The next state of a command that completes: the phase of R29, the OK response with data `d`, the input and the reset count
as they were. -/
structure Completes (i : Instr) (d : List Byte) (s t : State) : Prop where
  phase : t.phase = phaseAfter i
  responses : t.responses = s.responses ++ [.ok d]
  input : t.input = s.input
  resets : t.resets = s.resets

/-- A command that ends in OK completes when what it makes of the state has the right phase and the old streams (R194). -/
theorem exists_completes_of_respond {i : Instr} {d : List Byte} {s u : State} (h : exec i s = respond d u)
    (hphase : u.phase = phaseAfter i) (hresponses : u.responses = s.responses) (hinput : u.input = s.input)
    (hresets : u.resets = s.resets) : ∃ d t, exec i s = .next t ∧ Completes i d s t :=
  ⟨d, _, h, ⟨hphase, congrArg (· ++ [.ok d]) hresponses, hinput, hresets⟩⟩

/-- A command either answers an error and does nothing else, or completes (R194, R195). -/
theorem exec_error_or_completes (i : Instr) (s : State) :
    (∃ e, exec i s = .next (s.answered (.error e))) ∨ ∃ d t, exec i s = .next t ∧ Completes i d s t := by
  cases i with
  | init dlen salt personal =>
    cases hd : lengthLegal dlen.toNat with
    | false => exact .inl ⟨_, execInit_badLength hd salt personal s⟩
    | true => exact .inr (exists_completes_of_respond (execInit_legal hd salt personal s) rfl rfl rfl rfl)
  | initKey dlen key salt personal =>
    by_cases hbad : lengthLegal dlen.toNat = false ∨ maxKeyLength < key.length
    · exact .inl ⟨_, execInitKey_badLength hbad salt personal s⟩
    · obtain ⟨hd, hk⟩ := not_or.mp hbad
      rw [Bool.not_eq_false] at hd
      by_cases h0 : key.length = 0
      · exact .inl ⟨_, execInitKey_emptyKey hd h0 salt personal s⟩
      · exact .inr (exists_completes_of_respond (execInitKey_legal hd (Nat.le_of_not_lt hk) h0 salt personal s) rfl
          (by simp) (by simp) (by simp))
  | update bytes =>
    cases he : phaseError s.phase with
    | some e => exact .inl ⟨e, execUpdate_refused he bytes⟩
    | none =>
      have hs := (phaseError_none_iff s.phase).mp he
      exact .inr (exists_completes_of_respond (execUpdate_live hs bytes) rfl (by simp) (by simp) (by simp))
  | final olen =>
    cases he : phaseError s.phase with
    | some e => exact .inl ⟨e, execFinal_refused he olen⟩
    | none =>
      have hs := (phaseError_none_iff s.phase).mp he
      cases ho : lengthLegal olen.toNat with
      | false => exact .inl ⟨_, execFinal_badLength hs ho⟩
      | true =>
        obtain ⟨-, -, hinput, hresponses, hresets⟩ := compressHalves_frame s
        exact .inr (exists_completes_of_respond (execFinal_live hs ho) rfl hresponses hinput hresets)

/-- The same of a next state in hand. -/
theorem exec_next_cases {i : Instr} {s t : State} (h : exec i s = .next t) :
    (∃ e, t = s.answered (.error e)) ∨ ∃ d, Completes i d s t := by
  obtain ⟨e, he⟩ | ⟨d, u, hu, hc⟩ := exec_error_or_completes i s
  · exact .inl ⟨e, Host.Outcome.next.inj (h.symm.trans he)⟩
  · cases Host.Outcome.next.inj (h.symm.trans hu)
    exact .inr ⟨d, hc⟩

/-- Settles O23: the response tells which of the two ways the command ended, and each way fixes the phase. -/
theorem phaseTransitions : Obligations.PhaseTransitions := by
  intro i s t h
  refine ⟨fun e hr => ?_, fun d hr => ?_, fun hi => ⟨fun hp => ?_, fun hp => ?_⟩⟩
  · obtain ⟨e', rfl⟩ | ⟨d, hc⟩ := exec_next_cases h
    · rfl
    · simp [hc.responses] at hr
  · obtain ⟨e, rfl⟩ | ⟨d', hc⟩ := exec_next_cases h
    · simp at hr
    · exact hc.phase
  · cases h.symm.trans (exec_of_phaseError hi (e := .noSession) (by rw [hp]; rfl))
    rfl
  · cases h.symm.trans (exec_of_phaseError hi (e := .useAfterFinalize) (by rw [hp]; rfl))
    rfl

end Sys2Proof.Machine
end

section
/-! What BufRead returns after BufWrite (spec/20_memory.md R51, R52). -/

namespace Sys2Proof.Machine.Memory

theorem bufRead_succ (m : Memory) (i n : Nat) : m.bufRead i (n + 1) = m.read i :: m.bufRead (i + 1) n := rfl

/-- Byte `k` of a BufRead from address `i` is the one at `i + k` (R51). -/
theorem getElem?_bufRead (m : Memory) (i : Nat) {n k : Nat} (hk : k < n) :
    (m.bufRead i n)[k]? = some (m.read (i + k)) := by
  induction n generalizing i k with
  | zero => exact absurd hk (Nat.not_lt_zero k)
  | succ n ih =>
    cases k with
    | zero => rw [bufRead_succ, List.getElem?_cons_zero, Nat.add_zero]
    | succ k =>
      rw [bufRead_succ, List.getElem?_cons_succ, ih (i + 1) (Nat.lt_of_succ_lt_succ hk), Nat.add_right_comm, Nat.add_assoc]

/-- The byte at any address after BufWrite (R52). In the step from `bs` to `b :: bs`, address `i` lies below the rest of
the write, so it keeps `b`; no other address is touched by writing `b`. -/
theorem read_bufWrite {m : Memory} (hm : m.wf = true) (i : Nat) (bs : List Byte) (a : Nat) :
    (m.bufWrite i bs).read a = if i ≤ a ∧ a < i + bs.length then bs.getD (a - i) 0 else m.read a := by
  induction bs generalizing m i with
  | nil => rw [bufWrite_nil, if_neg (by simp)]
  | cons b bs ih =>
    rw [bufWrite_cons, ih (write_wf hm i b), List.length_cons]
    by_cases hai : a = i
    · subst hai
      rw [if_neg (by omega), if_pos (by omega), read_write_same hm, Nat.sub_self, List.getD_cons_zero]
    · rw [read_write_other hm b hai]
      by_cases hin : i + 1 ≤ a ∧ a < i + 1 + bs.length
      · rw [if_pos hin, if_pos (by omega), show a - i = a - (i + 1) + 1 by omega, List.getD_cons_succ]
      · rw [if_neg hin, if_neg (by omega)]

end Sys2Proof.Machine.Memory

namespace Sys2Proof.Machine

/-- Settles O10: BufWrite by induction on the bytes written, BufRead by induction on the count. -/
theorem bufferReadsWhatWasWritten : Obligations.BufferReadsWhatWasWritten := fun m i bs hm _ =>
  ⟨Memory.read_bufWrite hm i bs, fun j n _ => ⟨Memory.length_bufRead m j n, fun _ => Memory.getElem?_bufRead m j⟩⟩

end Sys2Proof.Machine
end

section
/-! What the word decoder answers, and how the rows of the opcode table select a word by mask and match
(spec/30_encoding.md R92, R93, R95, R100). -/

namespace Sys2Proof

/-! ### The decoder -/

/-- The format tables as a relation: what the opcode and the reserved bits of a word make of it (R83 to R86, R92, R93). -/
inductive WordReads (w : Word) : WordDecode → Prop
  | init (ho : opc w = 0x01) (hr : w.extractLsb' 2 46 = 0) :
    WordReads w (.header (.init (lengthField w) (saltBit w) (personalBit w)))
  | initReserved (ho : opc w = 0x01) (hr : w.extractLsb' 2 46 ≠ 0) : WordReads w (.illegal .reservedBits)
  | initKey (ho : opc w = 0x02) (hr : w.extractLsb' 2 38 = 0) :
    WordReads w (.header (.initKey (lengthField w) (klen w) (saltBit w) (personalBit w)))
  | initKeyReserved (ho : opc w = 0x02) (hr : w.extractLsb' 2 38 ≠ 0) : WordReads w (.illegal .reservedBits)
  | update (ho : opc w = 0x03) : WordReads w (.header (.update (lenField w)))
  | final (ho : opc w = 0x04) (hr : w.extractLsb' 0 48 = 0) : WordReads w (.header (.final (lengthField w)))
  | finalReserved (ho : opc w = 0x04) (hr : w.extractLsb' 0 48 ≠ 0) : WordReads w (.illegal .reservedBits)
  | reservedOpcode (h1 : opc w ≠ 0x01) (h2 : opc w ≠ 0x02) (h3 : opc w ≠ 0x03) (h4 : opc w ≠ 0x04) :
    WordReads w (.illegal .reservedOpcode)

theorem wordReads_decodeWord (w : Word) : WordReads w (decodeWord w) := by
  unfold decodeWord
  split_ifs with h1 hr h2 hr h3 h4 hr
  · exact .initReserved h1 hr
  · exact .init h1 (not_not.mp hr)
  · exact .initKeyReserved h2 hr
  · exact .initKey h2 (not_not.mp hr)
  · exact .update h3
  · exact .finalReserved h4 hr
  · exact .final h4 (not_not.mp hr)
  · exact .reservedOpcode h1 h2 h3 h4

/-- The decoder computes the relation (R95). -/
theorem decodeWord_eq_iff {w : Word} {d : WordDecode} : decodeWord w = d ↔ WordReads w d := by
  refine ⟨fun h => h ▸ wordReads_decodeWord w, fun h => ?_⟩
  cases h <;> simp_all [decodeWord]

theorem decodeWord_eq_init_iff (w : Word) :
    decodeWord w = .header (.init (lengthField w) (saltBit w) (personalBit w)) ↔
      opc w = 0x01 ∧ w.extractLsb' 2 46 = 0 :=
  decodeWord_eq_iff.trans ⟨fun | .init ho hr => ⟨ho, hr⟩, fun ⟨ho, hr⟩ => .init ho hr⟩

theorem decodeWord_eq_initKey_iff (w : Word) :
    decodeWord w = .header (.initKey (lengthField w) (klen w) (saltBit w) (personalBit w)) ↔
      opc w = 0x02 ∧ w.extractLsb' 2 38 = 0 :=
  decodeWord_eq_iff.trans ⟨fun | .initKey ho hr => ⟨ho, hr⟩, fun ⟨ho, hr⟩ => .initKey ho hr⟩

theorem decodeWord_eq_update_iff (w : Word) : decodeWord w = .header (.update (lenField w)) ↔ opc w = 0x03 :=
  decodeWord_eq_iff.trans ⟨fun | .update ho => ho, .update⟩

theorem decodeWord_eq_final_iff (w : Word) :
    decodeWord w = .header (.final (lengthField w)) ↔ opc w = 0x04 ∧ w.extractLsb' 0 48 = 0 :=
  decodeWord_eq_iff.trans ⟨fun | .final ho hr => ⟨ho, hr⟩, fun ⟨ho, hr⟩ => .final ho hr⟩

/-- Decoding is total: a word is illegal exactly when it is none of the four commands (R95). -/
theorem decodeWord_illegal_iff (w : Word) :
    (∃ why, decodeWord w = .illegal why) ↔
      decodeWord w ≠ .header (.init (lengthField w) (saltBit w) (personalBit w)) ∧
      decodeWord w ≠ .header (.initKey (lengthField w) (klen w) (saltBit w) (personalBit w)) ∧
      decodeWord w ≠ .header (.update (lenField w)) ∧ decodeWord w ≠ .header (.final (lengthField w)) := by
  have h := wordReads_decodeWord w
  generalize decodeWord w = d at h
  cases h <;> simp

/-! ### The rows of the opcode table -/

/-- A field is told by its bits, each at its place in the word. -/
theorem extractLsb'_eq_iff {k s n : Nat} (w : BitVec k) (v : BitVec n) :
    w.extractLsb' s n = v ↔ ∀ i, s ≤ i → i < s + n → w.getLsbD i = v.getLsbD (i - s) := by
  constructor
  · rintro rfl i hlo hhi
    rw [BitVec.getLsbD_extractLsb', Nat.add_sub_cancel' hlo, decide_eq_true (by omega), Bool.true_and]
  · refine fun h => BitVec.eq_of_getLsbD_eq fun i hi => ?_
    rw [BitVec.getLsbD_extractLsb', decide_eq_true hi, Bool.true_and, h (s + i) (by omega) (by omega),
      Nat.add_sub_cancel_left]

/-- The mask of the `n` bits of a word from bit `s` up. -/
def fieldMask (s n : Nat) : Word := (BitVec.allOnes n).setWidth 64 <<< s

theorem getLsbD_fieldMask {i : Nat} (hi : i < 64) (s n : Nat) :
    (fieldMask s n).getLsbD i = decide (s ≤ i ∧ i < s + n) := by
  simp only [fieldMask, BitVec.getLsbD_shiftLeft, BitVec.getLsbD_setWidth, BitVec.getLsbD_allOnes]
  grind

/-- What one bit of a row's test asks of the word: its bit of the opcode, or a clear reserved bit. -/
theorem getLsbD_and_rowMask_iff (w : Word) (op : Byte) {s n : Nat} (hfit : s + n ≤ 56) {i : Nat} (hi : i < 64) :
    (w &&& (fieldMask 56 8 ||| fieldMask s n)).getLsbD i = (op.setWidth 64 <<< 56).getLsbD i ↔
      (56 ≤ i → w.getLsbD i = op.getLsbD (i - 56)) ∧ (s ≤ i → i < s + n → w.getLsbD i = false) := by
  rw [BitVec.getLsbD_and, BitVec.getLsbD_or, getLsbD_fieldMask hi, getLsbD_fieldMask hi, BitVec.getLsbD_shiftLeft,
    BitVec.getLsbD_setWidth]
  by_cases hop : 56 ≤ i
  · simp [hop, hi, show ¬ i < 56 by omega, show ¬ i < s + n by omega, show i - 56 < 64 by omega]
  · by_cases hin : s ≤ i ∧ i < s + n
    · simp [hop, hin, show i < 56 by omega]
    · simp only [hop, hin, show i < 56 by omega]
      grind

/-- A row whose mask holds the opcode's bits and `n` reserved bits from bit `s` up selects the words that have its opcode
and keep those bits clear (R100). -/
theorem and_rowMask_eq_iff (w : Word) (op : Byte) {s n : Nat} (hfit : s + n ≤ 56) :
    w &&& (fieldMask 56 8 ||| fieldMask s n) = op.setWidth 64 <<< 56 ↔ opc w = op ∧ w.extractLsb' s n = 0 := by
  rw [opc, extractLsb'_eq_iff, extractLsb'_eq_iff]
  constructor
  · intro h
    have hsel (i : Nat) (hi : i < 64) := (getLsbD_and_rowMask_iff w op hfit hi).mp (by rw [h])
    exact ⟨fun i hlo hhi => (hsel i hhi).1 hlo, fun i hlo hhi => by simpa using (hsel i (by omega)).2 hlo hhi⟩
  · rintro ⟨hop, hr⟩
    exact BitVec.eq_of_getLsbD_eq fun i hi =>
      (getLsbD_and_rowMask_iff w op hfit hi).mpr ⟨fun hlo => hop i hlo hi, fun hlo hhi => by simpa using hr i hlo hhi⟩

theorem and_initMask_iff (w : Word) :
    w &&& 0xFF00FFFFFFFFFFFC = 0x0100000000000000 ↔ opc w = 0x01 ∧ w.extractLsb' 2 46 = 0 := by
  simpa [fieldMask] using and_rowMask_eq_iff w 0x01 (s := 2) (n := 46) (by decide)

theorem and_initKeyMask_iff (w : Word) :
    w &&& 0xFF0000FFFFFFFFFC = 0x0200000000000000 ↔ opc w = 0x02 ∧ w.extractLsb' 2 38 = 0 := by
  simpa [fieldMask] using and_rowMask_eq_iff w 0x02 (s := 2) (n := 38) (by decide)

/-- UPDATE has no reserved bits. -/
theorem and_updateMask_iff (w : Word) : w &&& 0xFF00000000000000 = 0x0300000000000000 ↔ opc w = 0x03 := by
  simpa [fieldMask] using and_rowMask_eq_iff w 0x03 (s := 0) (n := 0) (by decide)

theorem and_finalMask_iff (w : Word) :
    w &&& 0xFF00FFFFFFFFFFFF = 0x0400000000000000 ↔ opc w = 0x04 ∧ w.extractLsb' 0 48 = 0 := by
  simpa [fieldMask] using and_rowMask_eq_iff w 0x04 (s := 0) (n := 48) (by decide)

/-- Settles O38: each row's mask and match test the same opcode and reserved bits as the decoder, and decoding is total. -/
theorem opcodeTableSelects : Obligations.OpcodeTableSelects := by
  intro w
  have hinit := (and_initMask_iff w).trans (decodeWord_eq_init_iff w).symm
  have hinitKey := (and_initKeyMask_iff w).trans (decodeWord_eq_initKey_iff w).symm
  have hupdate := (and_updateMask_iff w).trans (decodeWord_eq_update_iff w).symm
  have hfinal := (and_finalMask_iff w).trans (decodeWord_eq_final_iff w).symm
  refine ⟨hinit, hinitKey, hupdate, hfinal, ?_⟩
  rw [ne_eq, ne_eq, ne_eq, ne_eq, hinit, hinitKey, hupdate, hfinal]
  exact decodeWord_illegal_iff w

end Sys2Proof
end

section
/-! Illegal words: a reserved opcode and a nonzero reserved bit (spec/30_encoding.md R92, R93), and the whole packet at the
front of the command stream (R80, R87). -/

namespace Sys2Proof.Machine

/-- A packet whose word is illegal is answered `IllegalCommand`, whatever its payload (R92, R93). -/
theorem runPacket_illegal {p : Packet} {why : IllegalWord} (h : decodeWord p.word = .illegal why) (s : State) :
    runPacket p s = raise .illegalCommand s := by
  rw [runPacket, decode, h]

theorem opc_ne_of_reserved {w : Word} (h : opc w = 0x00 ∨ 5 ≤ (opc w).toNat) :
    opc w ≠ 0x01 ∧ opc w ≠ 0x02 ∧ opc w ≠ 0x03 ∧ opc w ≠ 0x04 := by
  refine ⟨?_, ?_, ?_, ?_⟩ <;> (intro ho; rw [ho] at h; exact absurd h (by decide))

/-- Settles O39: such an opcode is none of the four, so the decoder and `paylen` both reach their last branch. -/
theorem reservedOpcodeIsIllegal : Obligations.ReservedOpcodeIsIllegal := by
  intro p s ho
  obtain ⟨h1, h2, h3, h4⟩ := opc_ne_of_reserved ho
  exact ⟨by rw [paylen, if_neg h1, if_neg h2, if_neg h3],
    runPacket_illegal (decodeWord_eq_iff.mpr (.reservedOpcode h1 h2 h3 h4)) s⟩

/-! ### Fetching a packet that was sent -/

/-- A byte put at bit `k` of a word, as a number: no bit of it is lost. -/
theorem toNat_setWidth_shiftLeft (b : Byte) {k : Nat} (hk : k ≤ 56) :
    ((b.setWidth 64 : Word) <<< k).toNat = b.toNat * 2 ^ k := by
  have hpow : 2 ^ k ≤ 2 ^ 56 := Nat.pow_le_pow_right (by decide) hk
  have hlt : b.toNat * 2 ^ k < 2 ^ 64 :=
    calc b.toNat * 2 ^ k ≤ 255 * 2 ^ 56 := Nat.mul_le_mul (Nat.le_of_lt_succ b.isLt) hpow
      _ < 2 ^ 64 := by decide
  rw [BitVec.toNat_shiftLeft, BitVec.toNat_setWidth_of_le (by decide), Nat.shiftLeft_eq, Nat.mod_eq_of_lt hlt]

/-- The word that eight bytes make, as a number (R110). -/
theorem toNat_load64 (b : Vector Byte 8) : (load64 b).toNat =
    b[0].toNat + b[1].toNat * 2 ^ 8 + b[2].toNat * 2 ^ 16 + b[3].toNat * 2 ^ 24 + b[4].toNat * 2 ^ 32
      + b[5].toNat * 2 ^ 40 + b[6].toNat * 2 ^ 48 + b[7].toNat * 2 ^ 56 := by
  simp (disch := decide) only [load64, BitVec.toNat_add, toNat_setWidth_shiftLeft, BitVec.toNat_setWidth_of_le,
    Nat.mod_add_mod]
  exact Nat.mod_eq_of_lt (by omega)

/-- Byte `i` of a stored word, as a number (R111). -/
theorem toNat_getElem_store64 (w : Word) (i : Nat) (hi : i < 8) : (store64 w)[i].toNat = w.toNat / 2 ^ (8 * i) % 2 ^ 8 := by
  simp [store64, Nat.shiftRight_eq_div_pow]

theorem load64_store64 (w : Word) : load64 (store64 w) = w := by
  apply BitVec.eq_of_toNat_eq
  rw [toNat_load64]
  simp only [toNat_getElem_store64]
  omega

theorem packetUnlessReset_of_noReset (p : Packet) {rest : List HostEvent} (h : noResetDuring rest) :
    packetUnlessReset p rest = .packet p rest := by
  unfold packetUnlessReset
  split
  · exact absurd rfl h
  · rfl

/-- A whole packet at the front of the stream is fetched, and nothing after it, where no reset hits its command (R80). -/
theorem fetch_sendPacket {p : Packet} (hp : wholePacket p) {rest : List HostEvent} (hrest : noResetDuring rest) :
    fetch (sendPacket p ++ rest) = .packet p rest := by
  have hword : takeBytes 8 (sendPacket p ++ rest) =
      .bytes (store64 p.word).toList (p.payload.map HostEvent.byte ++ rest) := by
    simpa [sendPacket, Packet.bytes] using
      takeBytes_all (store64 p.word).toList (p.payload.map HostEvent.byte ++ rest)
  have hne : sendPacket p ++ rest ≠ [] := by
    intro h
    rw [h] at hword
    cases hword
  have htake : takeVec 8 (store64 p.word).toList = store64 p.word := by
    simpa using takeVec_append (store64 p.word) []
  rw [fetch, if_neg hne, hword]
  simp only [htake, load64_store64, fetchPayload, ← hp, takeBytes_all]
  exact packetUnlessReset_of_noReset p hrest

/-- Settles O40: the packet is fetched whole, and its word is illegal before any check of the command is made. -/
theorem reservedBitIsIllegal : Obligations.ReservedBitIsIllegal := by
  intro s p rest hp hrest hinput hr
  have hd : decodeWord p.word = .illegal .reservedBits := by
    obtain ⟨ho, hr⟩ | ⟨ho, hr⟩ | ⟨ho, hr⟩ := hr
    · exact decodeWord_eq_iff.mpr (.initReserved ho hr)
    · exact decodeWord_eq_iff.mpr (.initKeyReserved ho hr)
    · exact decodeWord_eq_iff.mpr (.finalReserved ho hr)
  rw [step, hinput, fetch_sendPacket hp hrest]
  exact runPacket_illegal hd _

end Sys2Proof.Machine
end

section
/-! The data of a response (spec/30_encoding.md R96). -/

namespace Sys2Proof.Machine

/-! The two ways a command ends, against the response it gave. -/

/-- A command that raises an error does not answer OK (R195). -/
theorem ne_ok_of_raise {o : Host.Outcome State Fault Refusal} {e : CmdError} {s t : State} {d : List Byte}
    (ho : o = raise e s) (h : o = .next t) : t.responses ≠ s.responses ++ [.ok d] := by
  cases raise_eq_next.mp (ho.symm.trans h)
  simp

/-- A command that responds answers the data it responds with (R194). -/
theorem data_eq_of_respond {o : Host.Outcome State Fault Refusal} {d d' : List Byte} {s u t : State}
    (ho : o = respond d' u) (hu : u.responses = s.responses) (h : o = .next t)
    (hr : t.responses = s.responses ++ [.ok d]) : d = d' := by
  cases respond_eq_next.mp (ho.symm.trans h)
  simpa [hu, eq_comm] using hr

/-! The data each command answers when it succeeds. -/

theorem execInit_data {dlen : Byte} {salt personal : Option Bytes16} {s t : State} {d : List Byte}
    (h : execInit dlen salt personal s = .next t) (hr : t.responses = s.responses ++ [.ok d]) : d = [] := by
  cases hd : lengthLegal dlen.toNat with
  | false => exact absurd hr (ne_ok_of_raise (execInit_badLength hd salt personal s) h)
  | true => exact data_eq_of_respond (execInit_legal hd salt personal s) (by simp) h hr

theorem execInitKey_data {dlen : Byte} {key : List Byte} {salt personal : Option Bytes16} {s t : State} {d : List Byte}
    (h : execInitKey dlen key salt personal s = .next t) (hr : t.responses = s.responses ++ [.ok d]) : d = [] := by
  by_cases hbad : lengthLegal dlen.toNat = false ∨ maxKeyLength < key.length
  · exact absurd hr (ne_ok_of_raise (execInitKey_badLength hbad salt personal s) h)
  · obtain ⟨hd, hk⟩ := not_or.mp hbad
    rw [Bool.not_eq_false] at hd
    by_cases h0 : key.length = 0
    · exact absurd hr (ne_ok_of_raise (execInitKey_emptyKey hd h0 salt personal s) h)
    · exact data_eq_of_respond (execInitKey_legal hd (Nat.le_of_not_lt hk) h0 salt personal s) (by simp) h hr

theorem execUpdate_data {bytes : List Byte} {s t : State} {d : List Byte}
    (h : execUpdate bytes s = .next t) (hr : t.responses = s.responses ++ [.ok d]) : d = [] := by
  cases he : phaseError s.phase with
  | some e => exact absurd hr (ne_ok_of_raise (execUpdate_refused he bytes) h)
  | none => exact data_eq_of_respond (execUpdate_live ((phaseError_none_iff s.phase).mp he) bytes) (by simp) h hr

@[simp] theorem length_serialize (h : Vector Word 8) : (serialize h).length = 64 := by
  simp [serialize, List.length_flatMap]

/-- The last event FINAL records is the compression whose result it leaves (R43, R156). -/
theorem getLast?_events_compressLast (s : State) :
    ∃ e, (compressLast s).events.getLast? = some e ∧ e.hOut = (compressLast s).h := by
  rw [compressLast, compressBlock_events]
  exact ⟨_, List.getLast?_concat, rfl⟩

/-- FINAL returns the first `olen` bytes of the last compression's result (R156). -/
theorem execFinal_data {olen : Byte} {s t : State} {d : List Byte} (h : execFinal olen s = .next t)
    (hr : t.responses = s.responses ++ [.ok d]) :
    d.length = olen.toNat ∧ ∃ e, t.events.getLast? = some e ∧ d = (serialize e.hOut).take olen.toNat := by
  cases he : phaseError s.phase with
  | some e => exact absurd hr (ne_ok_of_raise (execFinal_refused he olen) h)
  | none =>
    have hs := (phaseError_none_iff s.phase).mp he
    cases ho : lengthLegal olen.toNat with
    | false => exact absurd hr (ne_ok_of_raise (execFinal_badLength hs ho) h)
    | true =>
      obtain ⟨-, -, -, hresponses, -⟩ := compressHalves_frame s
      obtain rfl := data_eq_of_respond (execFinal_live hs ho) hresponses h hr
      cases respond_eq_next.mp ((execFinal_live hs ho).symm.trans h)
      obtain ⟨e, hlast, hout⟩ := getLast?_events_compressLast (compressFirstOfTwo s)
      obtain ⟨-, hle⟩ := (lengthLegal_iff olen.toNat).mp ho
      exact ⟨by simp [hle], e, hlast, by rw [hout]⟩

/-- Settles O22: the bytes of a response are read off its definition, and its data off the command that answered it. -/
theorem onlyFinalReturnsData : Obligations.OnlyFinalReturnsData := by
  intro i s t r h hr
  refine ⟨fun e he => by rw [he]; rfl, ?_⟩
  rintro d rfl
  refine ⟨rfl, fun olen hi => ?_, fun hi => ?_⟩
  · subst hi
    exact execFinal_data h hr
  · cases i with
    | init dlen salt personal => exact execInit_data h hr
    | initKey dlen key salt personal => exact execInitKey_data h hr
    | update bytes => exact execUpdate_data h hr
    | final olen => exact absurd rfl (hi olen)

end Sys2Proof.Machine
end

section
/-! The word codec (spec/40_word_codec.md R110): the bytes of a loaded word. -/

namespace Sys2Proof.Machine

/-- Dividing the loaded word by `2^(8i)` drops the bytes below `i`; the remainder drops those above (R110). -/
theorem toNat_load64_div_mod (b : Vector Byte 8) {i : Nat} (hi : i < 8) :
    (load64 b).toNat / 2 ^ (8 * i) % 2 ^ 8 = b[i].toNat := by
  rw [toNat_load64]
  interval_cases i <;> omega

/-- Settles O2: bits `8i+7 : 8i` of a word are, as a number, its quotient by `2^(8i)` reduced modulo `2^8`. -/
theorem loadReadsLittleEndian : Obligations.LoadReadsLittleEndian := by
  intro b i
  apply BitVec.eq_of_toNat_eq
  rw [BitVec.extractLsb'_toNat, Nat.shiftRight_eq_div_pow]
  exact toNat_load64_div_mod b i.isLt

end Sys2Proof.Machine
end

section
/-! The Parameter Block (spec/42_parameter_block.md R141, R142): when PARAM_BUILD refuses, and the block field by field. -/

namespace Sys2Proof.Machine

/-- The refusals of PARAM_BUILD (R141). -/
theorem paramBuild_badLength {dl kl : Nat} (h : dl < 1 ∨ 64 < dl ∨ 64 < kl) (salt personal : Bytes16) :
    paramBuild dl kl salt personal = .error .invalidParameter := by
  rw [paramBuild]
  by_cases hd : dl < 1 ∨ dl > 64
  · rw [if_pos hd]
  · have hk : kl > maxKeyLength := by rw [maxKeyLength]; omega
    rw [if_neg hd, if_pos hk]

/-- PARAM_BUILD on legal lengths (R141). -/
theorem paramBuild_legal {dl kl : Nat} (h1 : 1 ≤ dl) (h64 : dl ≤ 64) (hk : kl ≤ maxKeyLength) (salt personal : Bytes16) :
    paramBuild dl kl salt personal = .ok (packParams dl kl salt personal) := by
  rw [paramBuild, if_neg (by omega), if_neg (by omega)]

theorem getElem_packParams (dl kl : Nat) (salt personal : Bytes16) {i : Nat} (hi : i < 64) :
    (packParams dl kl salt personal)[i] = paramByte dl kl salt personal ⟨i, hi⟩ := by
  rw [packParams, Vector.getElem_ofFn]

/-- The length bytes and the tree-mode constants, bytes 0 to 3 (R141, R142). -/
theorem packParams_lengths (dl kl : Nat) (salt personal : Bytes16) :
    let p := packParams dl kl salt personal
    p[0] = BitVec.ofNat 8 dl ∧ p[1] = BitVec.ofNat 8 kl ∧ p[2] = 1 ∧ p[3] = 1 := by
  simp [getElem_packParams, paramByte]

/-- From byte 4 on no length and no tree-mode constant other than zero enters the block (R141). -/
theorem getElem_packParams_of_four_le (dl kl : Nat) (salt personal : Bytes16) {i : Nat} (hi : i < 64) (h4 : 4 ≤ i) :
    (packParams dl kl salt personal)[i] =
      if i < 32 then 0 else if _h : i < 48 then salt[i - 32] else personal[i - 48] := by
  rw [getElem_packParams, paramByte, if_neg, if_neg, if_neg, if_neg] <;> dsimp only <;> omega

/-- Leaf length, node offset, node depth, inner length and the reserved bytes (R142). -/
theorem packParams_zeros (dl kl : Nat) (salt personal : Bytes16) (i : Fin 28) :
    (packParams dl kl salt personal)[4 + i.val] = 0 := by
  rw [getElem_packParams_of_four_le _ _ _ _ _ (by omega), if_pos (by omega)]

theorem packParams_salt (dl kl : Nat) (salt personal : Bytes16) (i : Fin 16) :
    (packParams dl kl salt personal)[32 + i.val] = salt[i] := by
  rw [getElem_packParams_of_four_le _ _ _ _ _ (by omega), if_neg (by omega), dif_pos (by omega)]
  simp

theorem packParams_personal (dl kl : Nat) (salt personal : Bytes16) (i : Fin 16) :
    (packParams dl kl salt personal)[48 + i.val] = personal[i] := by
  rw [getElem_packParams_of_four_le _ _ _ _ _ (by omega), if_neg (by omega), dif_neg (by omega)]
  simp

/-- Settles O6: a legal length fits in one byte, so the packed block holds both lengths unchanged. -/
theorem paramBlockBytes : Obligations.ParamBlockBytes := by
  intro dl kl salt personal
  refine ⟨fun h => paramBuild_badLength h salt personal, fun h1 h64 hk => ?_⟩
  obtain ⟨hp0, hp1, hp2, hp3⟩ := packParams_lengths dl kl salt personal
  have hdl : (BitVec.ofNat 8 dl).toNat = dl := by rw [BitVec.toNat_ofNat]; omega
  have hkl : (BitVec.ofNat 8 kl).toNat = kl := by rw [BitVec.toNat_ofNat]; omega
  exact ⟨packParams dl kl salt personal, paramBuild_legal h1 h64 hk salt personal,
    by rw [hp0, hdl], by rw [hp1, hkl], hp2, hp3,
    packParams_zeros dl kl salt personal, packParams_salt dl kl salt personal, packParams_personal dl kl salt personal⟩

end Sys2Proof.Machine
end

section
/-! INC_COUNTER as arithmetic on the 128-bit counter (spec/43_state_machine.md R150). -/

namespace Sys2Proof.Machine

/-- The low word comes out below the amount added exactly when the addition wrapped. -/
theorem add_ofNat_lt_iff (w : Word) {n : Nat} (hn : n < 2 ^ 64) :
    w + BitVec.ofNat 64 n < BitVec.ofNat 64 n ↔ 2 ^ 64 ≤ w.toNat + n := by
  rw [BitVec.lt_def, BitVec.toNat_add, BitVec.toNat_ofNat, Nat.mod_eq_of_lt hn]
  omega

/-- The high word moves only when the low word wraps (R150). -/
theorem incCounter_t1_of_lt {n : Nat} {s : State} (hlt : s.t0.toNat + n < 2 ^ 64) : (incCounter n s).t1 = s.t1 := by
  rw [incCounter_t1, if_neg (by rw [add_ofNat_lt_iff s.t0 (by omega)]; omega)]
  exact BitVec.add_zero s.t1

/-- The high word after a wrap of the low word (R150). -/
theorem incCounter_t1_of_le {n : Nat} {s : State} (hn : n < 2 ^ 64) (hle : 2 ^ 64 ≤ s.t0.toNat + n) :
    (incCounter n s).t1 = s.t1 + 1 := by
  rw [incCounter_t1, if_pos ((add_ofNat_lt_iff s.t0 hn).mpr hle)]

/-- The two words together are one 128-bit counter: the carry is what the low word lost (R21, R150). -/
theorem incCounter_T {n : Nat} (hn : n < 2 ^ 64) (s : State) : (incCounter n s).T = (s.T + n) % 2 ^ 128 := by
  have hlo : (incCounter n s).t0.toNat = (s.t0.toNat + n) % 2 ^ 64 := by
    rw [incCounter_t0, BitVec.toNat_add, BitVec.toNat_ofNat, Nat.mod_eq_of_lt hn]
  rw [State.T, State.T, hlo]
  by_cases hwrap : 2 ^ 64 ≤ s.t0.toNat + n
  · rw [incCounter_t1_of_le hn hwrap, BitVec.toNat_add, show (1 : Word).toNat = 1 from rfl]
    omega
  · rw [incCounter_t1_of_lt (by omega)]
    omega

/-- INC_COUNTER writes the counter alone (R150). -/
theorem incCounter_frame (n : Nat) (s : State) :
    incCounter n s = { s with t0 := (incCounter n s).t0, t1 := (incCounter n s).t1 } := rfl

theorem incCounter_zero (s : State) : incCounter 0 s = s := by
  rw [incCounter_frame, incCounter_t1_of_lt s.t0.isLt, incCounter_t0, BitVec.add_zero]

/-- Settles O9: a carry into the high word exactly when the low word wraps makes the addition one modulo `2^128`. -/
theorem counterAddsModulo : Obligations.CounterAddsModulo := by
  intro n s hn
  refine ⟨incCounter_T hn s, fun h0 => ?_, fun hne => ?_, incCounter_frame n s⟩
  · rw [h0, incCounter_zero]
  · by_contra hwrap
    exact hne (incCounter_t1_of_lt (Nat.lt_of_not_le hwrap))

end Sys2Proof.Machine
end

section
/-! What a session computes is a function of its operands (spec/43_state_machine.md R161): the commands work on a part of the
state that the start of the session overwrites whole, and never read the rest but for the phase check. -/

namespace Sys2Proof.Machine

/-- The part of the state that a session computes on: `s` without its phase, its streams and its reset count. -/
def State.hashPart (s : State) : State := { s with phase := .idle, input := [], responses := [], resets := 0 }

/-- START overwrites all of it (R151). -/
theorem hashPart_startWith (p : Vector Byte 64) (s : State) : (startWith p s).hashPart = startWith p State.reset := rfl

theorem hashPart_shiftLeft (s : State) : (shiftLeft s).hashPart = shiftLeft s.hashPart := by
  simp only [shiftLeft, State.hashPart]

theorem hashPart_overflowPass (bs : List Byte) (s : State) :
    (overflowPass bs s).hashPart = overflowPass bs s.hashPart := by
  rw [overflowPass, hashPart_shiftLeft]
  rfl

/-- ABSORB neither reads nor writes the rest of the state (R152). -/
theorem hashPart_absorb (bs : List Byte) (s : State) : (absorb bs s).hashPart = absorb bs s.hashPart := by
  induction bs, s using absorb_induction with
  | hnil s => rw [absorb_nil, absorb_nil]
  | hfits bs s hne hf =>
    have hf' : s.hashPart.buflen.val + bs.length ≤ 256 := hf
    rw [absorb_fits hne hf, absorb_fits hne hf']
    rfl
  | hover bs s h ih =>
    have h' : 256 < s.hashPart.buflen.val + bs.length := h
    rw [absorb_overflow h, absorb_overflow h', ih, hashPart_overflowPass]
    rfl

/-- FINAL's first half neither reads nor writes the rest of the state (R156). -/
theorem hashPart_compressFirstOfTwo (s : State) :
    (compressFirstOfTwo s).hashPart = compressFirstOfTwo s.hashPart := by
  by_cases h : s.buflen.val ≤ 128
  · have h' : s.hashPart.buflen.val ≤ 128 := h
    rw [compressFirstOfTwo_one h, compressFirstOfTwo_one h']
  · have h' : 128 < s.hashPart.buflen.val := Nat.lt_of_not_le h
    rw [compressFirstOfTwo_two (Nat.lt_of_not_le h), compressFirstOfTwo_two h']
    simp only [State.hashPart]
    rfl

/-- Nor do its two halves together. -/
theorem hashPart_compressHalves (s : State) :
    (compressLast (compressFirstOfTwo s)).hashPart = compressLast (compressFirstOfTwo s.hashPart) := by
  rw [← hashPart_compressFirstOfTwo]
  rfl

/-! ### The commands of a session -/

/-- A command that ends hands its next state to the commands after it (R67). -/
theorem runCommands_cons {i : Instr} {s t : State} (h : exec i s = .next t) (is : List Instr) :
    runCommands (i :: is) s = runCommands is t := by
  rw [runCommands, h]

/-- INIT and INIT_KEY with legal lengths open a session whose hash part is the same from every state (R151). -/
theorem exec_start_hashPart {start : Instr} {dlen : Byte} {key : List Byte} {salt personal : Option Bytes16}
    (hd : legalLength dlen)
    (hstart : start = .init dlen salt personal ∨ legalKey key ∧ start = .initKey dlen key salt personal) :
    ∃ u, ∀ s, ∃ t, exec start s = .next t ∧ t.phase.live ∧ t.hashPart = u := by
  have hd' := (lengthLegal_iff dlen.toNat).mpr hd
  obtain rfl | ⟨⟨h1, h64⟩, rfl⟩ := hstart
  · exact ⟨_, fun s => ⟨_, execInit_legal hd' salt personal s, .inl rfl, hashPart_startWith _ s⟩⟩
  · exact ⟨_, fun s => ⟨_, execInitKey_legal hd' h64 (Nat.ne_of_gt h1) salt personal s, .inr rfl,
      (hashPart_absorb _ _).trans (congrArg (absorb _) (hashPart_startWith _ s))⟩⟩

/-- UPDATE in an open session is ABSORB of the hash part (R155). -/
theorem exec_update_hashPart {s : State} (hs : s.phase.live) (bs : List Byte) :
    ∃ t, exec (.update bs) s = .next t ∧ t.phase.live ∧ t.hashPart = absorb bs s.hashPart :=
  ⟨_, execUpdate_live hs bs, .inr rfl, hashPart_absorb bs s⟩

/-- ABSORB of each chunk in turn. -/
def absorbChunks (chunks : List (List Byte)) (s : State) : State := chunks.foldl (fun u bs => absorb bs u) s

/-- The UPDATEs of an open session absorb their chunks one after the other, and the session stays open (R155). -/
theorem runCommands_updates_hashPart (chunks : List (List Byte)) (rest : List Instr) {s : State} (hs : s.phase.live) :
    ∃ t, runCommands (chunks.map Instr.update ++ rest) s = runCommands rest t ∧ t.phase.live ∧
      t.hashPart = absorbChunks chunks s.hashPart := by
  induction chunks generalizing s with
  | nil => exact ⟨s, rfl, hs, rfl⟩
  | cons bs chunks ih =>
    obtain ⟨v, hv, hlive, hpart⟩ := exec_update_hashPart hs bs
    obtain ⟨t, ht, hlive', hpart'⟩ := ih hlive
    exact ⟨t, (runCommands_cons hv _).trans ht, hlive', by rw [hpart', hpart]; rfl⟩

/-- FINAL's digest and the event log it leaves are read off the hash part (R156). -/
theorem exec_final_hashPart {s : State} (hs : s.phase.live) {olen : Byte} (ho : legalLength olen) :
    ∃ t, exec (.final olen) s = .next t ∧ t.events = (compressLast (compressFirstOfTwo s.hashPart)).events ∧
      lastResponse t = some (.ok ((serialize (compressLast (compressFirstOfTwo s.hashPart)).h).take olen.toNat)) := by
  refine ⟨_, execFinal_live hs ((lengthLegal_iff olen.toNat).mpr ho), ?_, ?_⟩
  all_goals rw [← hashPart_compressHalves]
  · rfl
  · exact List.getLast?_concat

/-- One state `u` answers for the whole session whatever state it starts from (R161). -/
theorem runCommands_session_hashPart {start : Instr} {dlen olen : Byte} {key : List Byte} {salt personal : Option Bytes16}
    (chunks : List (List Byte)) (hd : legalLength dlen) (ho : legalLength olen)
    (hstart : start = .init dlen salt personal ∨ legalKey key ∧ start = .initKey dlen key salt personal) :
    ∃ u : State, ∀ s, ∃ t, runCommands (start :: (chunks.map Instr.update ++ [.final olen])) s = .next t ∧
      t.events = u.events ∧ lastResponse t = some (.ok ((serialize u.h).take olen.toNat)) := by
  obtain ⟨u, hu⟩ := exec_start_hashPart hd hstart
  refine ⟨compressLast (compressFirstOfTwo (absorbChunks chunks u)), fun s => ?_⟩
  obtain ⟨a, ha, hlive, rfl⟩ := hu s
  obtain ⟨b, hb, hlive', hpart⟩ := runCommands_updates_hashPart chunks [.final olen] hlive
  obtain ⟨t, ht, hevents, hlast⟩ := exec_final_hashPart hlive' ho
  rw [hpart] at hevents hlast
  exact ⟨t, ((runCommands_cons ha _).trans hb).trans (runCommands_cons ht []), hevents, hlast⟩

/-- Settles O50: the session ends in the digest and the log of one state that depends on its operands alone. -/
theorem repeatedSessionsAnswerAlike : Obligations.RepeatedSessionsAnswerAlike := by
  intro s s' start dlen olen key salt personal chunks hd ho hstart
  obtain ⟨u, hu⟩ := runCommands_session_hashPart chunks hd ho hstart
  obtain ⟨t, ht, hevents, hlast⟩ := hu s
  obtain ⟨t', ht', hevents', hlast'⟩ := hu s'
  refine ⟨t, t', _, ht, ht', hlast, hlast', ?_, hevents.trans hevents'.symm⟩
  rw [List.length_take, length_serialize, Nat.min_eq_left ho.2]

end Sys2Proof.Machine
end

section
/-! When a command is refused and with which error (spec/60_exceptions.md R193, R195, R196, R198). -/

namespace Sys2Proof

/-! ### The masks of R198's first check -/

/-- A word has no bit under a field's mask exactly when the field is zero. -/
theorem and_fieldMask_eq_zero_iff (w : Word) {s n : Nat} (hfit : s + n ≤ 64) :
    w &&& fieldMask s n = 0 ↔ w.extractLsb' s n = 0 := by
  rw [extractLsb'_eq_iff]
  constructor
  · intro h i hlo hhi
    have hbit := congrArg (BitVec.getLsbD · i) h
    simpa [getLsbD_fieldMask (show i < 64 by omega), hlo, hhi] using hbit
  · refine fun h => BitVec.eq_of_getLsbD_eq fun i hi => ?_
    rw [BitVec.getLsbD_and, getLsbD_fieldMask hi]
    by_cases hin : s ≤ i ∧ i < s + n
    · simpa [hin] using h i hin.1 hin.2
    · simp [hin]

theorem and_initReserved_iff (w : Word) : w &&& 0x0000FFFFFFFFFFFC = 0 ↔ w.extractLsb' 2 46 = 0 := by
  simpa [fieldMask] using and_fieldMask_eq_zero_iff w (s := 2) (n := 46) (by decide)

theorem and_initKeyReserved_iff (w : Word) : w &&& 0x000000FFFFFFFFFC = 0 ↔ w.extractLsb' 2 38 = 0 := by
  simpa [fieldMask] using and_fieldMask_eq_zero_iff w (s := 2) (n := 38) (by decide)

theorem and_finalReserved_iff (w : Word) : w &&& 0x0000FFFFFFFFFFFF = 0 ↔ w.extractLsb' 0 48 = 0 := by
  simpa [fieldMask] using and_fieldMask_eq_zero_iff w (s := 0) (n := 48) (by decide)

end Sys2Proof

namespace Sys2Proof.Machine

/-! ### The error of a command, from its operands -/

/-- Checks (2) and (3) of R198: the error a command ends in, if any. -/
def commandError : Instr → Phase → Option CmdError
  | .init dlen _ _, _ => if lengthLegal dlen.toNat = false then some .invalidParameter else none
  | .initKey dlen key _ _, _ =>
    if lengthLegal dlen.toNat = false then some .invalidParameter
    else if maxKeyLength < key.length then some .invalidParameter
    else if key.length = 0 then some .invalidKey
    else none
  | .update _, phase => phaseError phase
  | .final olen, phase =>
    (phaseError phase).or (if lengthLegal olen.toNat = false then some .invalidParameter else none)

/-- What a command run on `s` ends in: the error alone and no other change, or an OK response (R194, R195). -/
def Answers (s : State) (o : Host.Outcome State Fault Refusal) : Option CmdError → Prop
  | some e => o = .next (s.answered (.error e))
  | none => ∃ t d, o = .next t ∧ t.responses = s.responses ++ [.ok d]

theorem answers_of_raise {s : State} {o : Host.Outcome State Fault Refusal} {e : CmdError} (h : o = raise e s) :
    Answers s o (some e) := h

theorem answers_of_respond {s u : State} {o : Host.Outcome State Fault Refusal} {d : List Byte} (h : o = respond d u)
    (hu : u.responses = s.responses) : Answers s o none :=
  ⟨_, d, h, congrArg (· ++ [.ok d]) hu⟩

/-- Every command is answered with its `commandError`. -/
theorem exec_answers (i : Instr) (s : State) : Answers s (exec i s) (commandError i s.phase) := by
  cases i with
  | init dlen salt personal =>
    rw [commandError]
    split_ifs with hd
    · exact answers_of_raise (execInit_badLength hd salt personal s)
    · exact answers_of_respond (execInit_legal (eq_true_of_ne_false hd) salt personal s) rfl
  | initKey dlen key salt personal =>
    rw [commandError]
    split_ifs with hd hk h0
    · exact answers_of_raise (execInitKey_badLength (.inl hd) salt personal s)
    · exact answers_of_raise (execInitKey_badLength (.inr hk) salt personal s)
    · exact answers_of_raise (execInitKey_emptyKey (eq_true_of_ne_false hd) h0 salt personal s)
    · exact answers_of_respond
        (execInitKey_legal (eq_true_of_ne_false hd) (Nat.le_of_not_lt hk) h0 salt personal s) (by simp)
  | update bytes =>
    rw [commandError]
    cases he : phaseError s.phase with
    | some e => exact answers_of_raise (execUpdate_refused he bytes)
    | none => exact answers_of_respond (execUpdate_live ((phaseError_none_iff s.phase).mp he) bytes) (by simp)
  | final olen =>
    rw [commandError]
    cases he : phaseError s.phase with
    | some e => exact answers_of_raise (execFinal_refused he olen)
    | none =>
      have hs := (phaseError_none_iff s.phase).mp he
      rw [Option.none_or]
      split_ifs with ho
      · exact answers_of_raise (execFinal_badLength hs ho)
      · obtain ⟨-, -, -, hresponses, -⟩ := compressHalves_frame s
        exact answers_of_respond (execFinal_live hs (eq_true_of_ne_false ho)) hresponses

/-! ### The error of a packet, from the bits of its word -/

/-- The error of what a packet decodes to: check (1) of R198, then those of the command. -/
def decodedError : Decoded → Phase → Option CmdError
  | .instr i, phase => commandError i phase
  | .illegal _, _ => some .illegalCommand

theorem runPacket_answers (p : Packet) (s : State) : Answers s (runPacket p s) (decodedError (decode p) s.phase) := by
  rw [runPacket]
  cases decode p with
  | instr i => exact exec_answers i s
  | illegal why => exact answers_of_raise rfl

theorem byte_eq_zero_iff (b : Byte) : b = 0 ↔ b.toNat = 0 := BitVec.toNat_eq

theorem lengthLegal_toNat_false_iff (b : Byte) : lengthLegal b.toNat = false ↔ b = 0 ∨ 64 < b.toNat := by
  rw [lengthLegal_false_iff, Nat.lt_one_iff, byte_eq_zero_iff]

theorem phaseError_or (phase : Phase) (c : Option CmdError) : (phaseError phase).or c =
    if phase = .idle then some .noSession else if phase = .finalized then some .useAfterFinalize else c := by
  cases phase <;> rfl

/-- The key that the payload of a whole INIT_KEY packet begins with has the length its word says (R84, R87). -/
theorem length_take_klen {p : Packet} (hp : wholePacket p) (ho : opc p.word = 0x02) :
    (p.payload.take (klen p.word).toNat).length = (klen p.word).toNat := by
  have hle : (klen p.word).toNat ≤ p.payload.length := by
    rw [hp, paylen, if_neg (by simp [ho]), if_pos ho]
    omega
  rw [List.length_take, Nat.min_eq_left hle]

/-- R198 read from the bits of a whole packet's word is the error of what the packet decodes to. -/
theorem expectedError_eq_decodedError {p : Packet} (hp : wholePacket p) (phase : Phase) :
    expectedError p.word phase = decodedError (decode p) phase := by
  have hw := wordReads_decodeWord p.word
  rw [decode]
  generalize decodeWord p.word = d at hw
  cases hw with
  | init ho hr =>
    rw [expectedError, if_pos ho, if_neg (· ((and_initReserved_iff _).mpr hr))]
    simp only [decodedError, assemble, commandError, lengthLegal_toNat_false_iff]
  | initReserved ho hr =>
    rw [expectedError, if_pos ho, if_pos (mt (and_initReserved_iff _).mp hr)]
    rfl
  | initKey ho hr =>
    rw [expectedError, if_neg (by simp [ho]), if_pos ho, if_neg (· ((and_initKeyReserved_iff _).mpr hr))]
    simp only [decodedError, assemble, commandError, lengthLegal_toNat_false_iff, length_take_klen hp ho, maxKeyLength,
      byte_eq_zero_iff]
  | initKeyReserved ho hr =>
    rw [expectedError, if_neg (by simp [ho]), if_pos ho, if_pos (mt (and_initKeyReserved_iff _).mp hr)]
    rfl
  | update ho =>
    rw [expectedError, if_neg (by simp [ho]), if_neg (by simp [ho]), if_pos ho, ← phaseError_or, Option.or_none]
    rfl
  | final ho hr =>
    rw [expectedError, if_neg (by simp [ho]), if_neg (by simp [ho]), if_neg (by simp [ho]), if_pos ho,
      if_neg (· ((and_finalReserved_iff _).mpr hr)), ← phaseError_or]
    simp only [decodedError, assemble, commandError, lengthLegal_toNat_false_iff]
  | finalReserved ho hr =>
    rw [expectedError, if_neg (by simp [ho]), if_neg (by simp [ho]), if_neg (by simp [ho]), if_pos ho,
      if_pos (mt (and_finalReserved_iff _).mp hr)]
    rfl
  | reservedOpcode h1 h2 h3 h4 =>
    rw [expectedError, if_neg h1, if_neg h2, if_neg h3, if_neg h4]
    rfl

/-- Settles O19: a whole packet is answered with the error of what it decodes to, and R198 names that error. -/
theorem errorPriority : Obligations.ErrorPriority := by
  intro p s hp
  have h := runPacket_answers p s
  rw [← expectedError_eq_decodedError hp] at h
  exact h

/-! ### What an error leaves -/

/-- A step that finds a whole packet consumes it and runs it. -/
theorem step_of_fetch_packet {s : State} {p : Packet} {rest : List HostEvent} (h : fetch s.input = .packet p rest) :
    step s = runPacket p { s with input := rest } := by
  rw [step, h]

/-- Settles O20: of the two ways a packet is answered, the error response leaves only the one that changes nothing. -/
theorem errorsChangeNothing : Obligations.ErrorsChangeNothing := by
  intro s t p rest e hfetch hstep hr
  rw [step_of_fetch_packet hfetch] at hstep
  have h := runPacket_answers p { s with input := rest }
  rw [hstep] at h
  cases he : decodedError (decode p) s.phase with
  | some e' =>
    rw [he] at h
    cases Host.Outcome.next.inj h
    obtain rfl : e' = e := by simpa using hr
    rfl
  | none =>
    rw [he] at h
    obtain ⟨u, d, hu, hok⟩ := h
    cases Host.Outcome.next.inj hu
    simp [hr] at hok

/-- Settles O24: UPDATE and FINAL answer the phase's error and keep the phase, so neither leaves Finalized. -/
theorem useAfterFinalizeIsRefused : Obligations.UseAfterFinalizeIsRefused := by
  intro s hs
  have he : phaseError s.phase = some .useAfterFinalize := by rw [hs]; rfl
  refine ⟨fun bytes => exec_of_phaseError (.inl ⟨bytes, rfl⟩) he, fun olen => exec_of_phaseError (.inr ⟨olen, rfl⟩) he,
    fun i t h hleft => ?_⟩
  have hstays (hi : (∃ bytes, i = .update bytes) ∨ ∃ olen, i = .final olen) : t.phase = .finalized := by
    cases h.symm.trans (exec_of_phaseError hi he)
    exact hs
  cases i with
  | init dlen salt personal => exact .inl ⟨dlen, salt, personal, rfl⟩
  | initKey dlen key salt personal => exact .inr ⟨dlen, key, salt, personal, rfl⟩
  | update bytes => exact absurd (hstays (.inl ⟨bytes, rfl⟩)) hleft
  | final olen => exact absurd (hstays (.inr ⟨olen, rfl⟩)) hleft

/-- Settles O25: the phase check refuses both commands before any operand is read. -/
theorem noSessionIsRefused : Obligations.NoSessionIsRefused := by
  intro s hs
  have he : phaseError s.phase = some .noSession := by rw [hs]; rfl
  exact ⟨fun bytes => exec_of_phaseError (.inl ⟨bytes, rfl⟩) he, fun olen => exec_of_phaseError (.inr ⟨olen, rfl⟩) he⟩

end Sys2Proof.Machine
end

section
/-! The machine after reset (spec/70_reset_and_hazards.md R221). -/

namespace Sys2Proof.Machine

/-- Settles O42: `State.reset` gives the phase and the log outright, and the code is Idle's row of `Phase.code`. -/
theorem resetState : Obligations.ResetState := ⟨rfl, rfl, rfl⟩

end Sys2Proof.Machine
end

section
/-! Packets and streams: encoding and decoding are inverse (spec/30_encoding.md R80 to R89), and what one step finds at the
front of the command stream (R80, R87; spec/70_reset_and_hazards.md R220, R226). -/

namespace Sys2Proof

open Sys2Proof.Machine

/-! ### Decoding what was encoded -/

/-- The packet of a well-formed command is whole (R80, R87). -/
theorem wholePacket_encode {i : Instr} (hi : i.wf = true) : wholePacket (encode i) := by
  cases i with
  | init dlen salt personal => exact Laws.PacketLength.init dlen salt personal hi
  | initKey dlen key salt personal => exact Laws.PacketLength.initKey dlen key salt personal hi
  | update bytes => exact Laws.PacketLength.update bytes hi
  | final olen => exact Laws.PacketLength.final olen hi

/-- An optional operand is read back off the front of its own bytes (R88). -/
theorem optBytes16_optToBytes (b : Option Bytes16) (l : List Byte) : optBytes16 b.isSome (optToBytes b ++ l) = b := by
  cases b with
  | none => rfl
  | some v => exact congrArg some (takeVec_append v l)

theorem drop_optLen (b : Option Bytes16) (l : List Byte) : (optToBytes b ++ l).drop (optLen b.isSome) = l :=
  List.drop_left' (length_optToBytes b)

theorem assemble_init (dlen : Byte) (salt personal : Option Bytes16) :
    assemble (.init dlen salt.isSome personal.isSome) (optToBytes salt ++ optToBytes personal) =
      .init dlen salt personal := by
  rw [assemble, optBytes16_optToBytes, drop_optLen]
  have hp := optBytes16_optToBytes personal []
  rw [List.append_nil] at hp
  rw [hp]

theorem assemble_initKey (dlen k : Byte) {key : List Byte} (hk : key.length = k.toNat) (salt personal : Option Bytes16) :
    assemble (.initKey dlen k salt.isSome personal.isSome) (key ++ optToBytes salt ++ optToBytes personal) =
      .initKey dlen key salt personal := by
  have hp := optBytes16_optToBytes personal []
  rw [List.append_nil] at hp
  rw [assemble, List.append_assoc, List.take_left' hk, List.drop_left' hk, ← List.drop_drop, List.drop_left' hk,
    optBytes16_optToBytes, drop_optLen, hp]

/-- The decoder undoes the encoder on one packet. -/
theorem decode_encode {i : Instr} (hi : i.wf = true) : decode (encode i) = .instr i := by
  rw [decode]
  cases i with
  | init dlen salt personal =>
    have h := (decodeWord_eq_init_iff (encodeWord (.init dlen salt personal))).mpr (by simp)
    simp only [encode, encodePayload, h, lengthField_encodeWord_init, saltBit_encodeWord_init,
      personalBit_encodeWord_init, assemble_init]
  | initKey dlen key salt personal =>
    have h := (decodeWord_eq_initKey_iff (encodeWord (.initKey dlen key salt personal))).mpr (by simp)
    have hk : key.length = (BitVec.ofNat 8 key.length).toNat :=
      (BitVec.toNat_ofNat .. ▸ Nat.mod_eq_of_lt (of_decide_eq_true hi)).symm
    simp only [encode, encodePayload, h, lengthField_encodeWord_initKey, klen_encodeWord_initKey,
      saltBit_encodeWord_initKey, personalBit_encodeWord_initKey, assemble_initKey dlen _ hk]
  | update bytes =>
    have h := (decodeWord_eq_update_iff (encodeWord (.update bytes))).mpr (by simp)
    have hlen : (BitVec.ofNat 56 bytes.length).toNat = bytes.length :=
      BitVec.toNat_ofNat .. ▸ Nat.mod_eq_of_lt (of_decide_eq_true hi)
    simp only [encode, encodePayload, h, lenField_encodeWord_update, assemble, hlen, List.take_length]
  | final olen =>
    have h := (decodeWord_eq_final_iff (encodeWord (.final olen))).mpr (by simp)
    simp only [encode, h, lengthField_encodeWord_final, assemble]

@[simp] theorem length_bytes (p : Packet) : p.bytes.length = 8 + p.payload.length := by
  simp [Packet.bytes]

theorem takeVec_toList {n : Nat} (v : Vector Byte n) : takeVec n v.toList = v := by
  simpa using takeVec_append v []

theorem takeVec_bytes (p : Packet) (rest : List Byte) : takeVec 8 (p.bytes ++ rest) = store64 p.word := by
  rw [Packet.bytes, List.append_assoc, takeVec_append]

/-- A whole packet is framed off the front of a byte string (R80, R87). -/
theorem framePacket_bytes {p : Packet} (hp : wholePacket p) (rest : List Byte) :
    framePacket (p.bytes ++ rest) = some (p, rest) := by
  have hlen : (p.bytes ++ rest).length = 8 + paylen p.word + rest.length := by
    rw [List.length_append, length_bytes, hp]
  have hword : (p.bytes ++ rest).drop 8 = p.payload ++ rest := by
    rw [Packet.bytes, List.append_assoc, List.drop_left' (by simp)]
  rw [framePacket, if_neg (by omega)]
  simp only [takeVec_bytes, load64_store64]
  rw [if_neg (by omega), ← List.drop_drop, hword, List.take_left' hp, List.drop_left' hp]

/-- Settles O36: the packet is framed whole, and each field of its word, then its payload, is read back. -/
theorem decodeEncode : Obligations.DecodeEncode := by
  intro i rest hi
  rw [decodeBytes, framePacket_bytes (wholePacket_encode hi)]
  exact congrArg (StreamDecode.packet · rest) (decode_encode hi)

/-! ### Encoding what was decoded -/

theorem ofBool_getLsbD (w : Word) (i : Nat) : BitVec.ofBool (w.getLsbD i) = w.extractLsb' i 1 := by
  ext j hj
  simp [show j = 0 by omega]

/-- A word put together again from the fields of its opcode, its length byte, its reserved bits and its presence bits. -/
theorem append_fields_init (w : Word) :
    opc w ++ lengthField w ++ w.extractLsb' 2 46 ++ BitVec.ofBool (personalBit w) ++ BitVec.ofBool (saltBit w) = w := by
  rw [opc, lengthField, personalBit, saltBit, ofBool_getLsbD, ofBool_getLsbD,
    BitVec.extractLsb'_append_extractLsb'_eq_extractLsb' (by rfl),
    BitVec.extractLsb'_append_extractLsb'_eq_extractLsb' (by rfl),
    BitVec.extractLsb'_append_extractLsb'_eq_extractLsb' (by rfl),
    BitVec.extractLsb'_append_extractLsb'_eq_extractLsb' (by rfl)]
  exact BitVec.extractLsb'_eq_self

theorem append_fields_initKey (w : Word) :
    opc w ++ lengthField w ++ klen w ++ w.extractLsb' 2 38 ++ BitVec.ofBool (personalBit w) ++
      BitVec.ofBool (saltBit w) = w := by
  rw [opc, lengthField, klen, personalBit, saltBit, ofBool_getLsbD, ofBool_getLsbD,
    BitVec.extractLsb'_append_extractLsb'_eq_extractLsb' (by rfl),
    BitVec.extractLsb'_append_extractLsb'_eq_extractLsb' (by rfl),
    BitVec.extractLsb'_append_extractLsb'_eq_extractLsb' (by rfl),
    BitVec.extractLsb'_append_extractLsb'_eq_extractLsb' (by rfl),
    BitVec.extractLsb'_append_extractLsb'_eq_extractLsb' (by rfl)]
  exact BitVec.extractLsb'_eq_self

theorem append_fields_update (w : Word) : opc w ++ lenField w = w := by
  rw [opc, lenField, BitVec.extractLsb'_append_extractLsb'_eq_extractLsb' (by rfl)]
  exact BitVec.extractLsb'_eq_self

theorem append_fields_final (w : Word) : opc w ++ lengthField w ++ w.extractLsb' 0 48 = w := by
  rw [opc, lengthField, BitVec.extractLsb'_append_extractLsb'_eq_extractLsb' (by rfl),
    BitVec.extractLsb'_append_extractLsb'_eq_extractLsb' (by rfl)]
  exact BitVec.extractLsb'_eq_self

@[simp] theorem isSome_optBytes16 (b : Bool) (l : List Byte) : (optBytes16 b l).isSome = b := by
  cases b <;> rfl

theorem toList_takeVec {n : Nat} {l : List Byte} (h : n ≤ l.length) : (takeVec n l).toList = l.take n := by
  apply List.ext_getElem?
  intro i
  by_cases hi : i < n
  · simp [takeVec, hi, show i < l.length by omega]
  · simp [takeVec, hi]

/-- The bytes of an optional operand that is wholly there are the bytes it was read from. -/
theorem optToBytes_optBytes16 {b : Bool} {l : List Byte} (h : optLen b ≤ l.length) :
    optToBytes (optBytes16 b l) = l.take (optLen b) := by
  cases b with
  | false => simp [optToBytes, optBytes16, optLen]
  | true => exact toList_takeVec h

/-- Two optional operands that fill the rest of a payload are written back as that rest (R88). -/
theorem optToBytes_append {b c : Bool} {l : List Byte} (h : l.length = optLen b + optLen c) :
    optToBytes (optBytes16 b l) ++ optToBytes (optBytes16 c (l.drop (optLen b))) = l := by
  rw [optToBytes_optBytes16 (by omega), optToBytes_optBytes16 (by rw [List.length_drop]; omega),
    List.take_of_length_le (l := l.drop _) (by rw [List.length_drop]; omega), List.take_append_drop]

/-- The encoder undoes the decoder on a whole packet. -/
theorem encode_of_decode {p : Packet} {i : Instr} (hp : wholePacket p) (hd : decode p = .instr i) :
    i.wf = true ∧ encode i = p := by
  obtain ⟨w, pl⟩ := p
  have hp : pl.length = paylen w := hp
  have hread := wordReads_decodeWord w
  rw [decode] at hd
  dsimp only at hd
  generalize decodeWord w = d at hread hd
  cases hread with
  | init ho hr =>
    cases hd
    rw [paylen, if_pos ho] at hp
    have hw := append_fields_init w
    rw [ho, hr] at hw
    refine ⟨rfl, ?_⟩
    simp only [encode, assemble, encodeWord, encodePayload, isSome_optBytes16, optToBytes_append hp]
    exact congrArg (Packet.mk · pl) hw
  | initKey ho hr =>
    cases hd
    rw [paylen, if_neg (by simp [ho]), if_pos ho] at hp
    have hw := append_fields_initKey w
    rw [ho, hr] at hw
    have hk : (pl.take (klen w).toNat).length = (klen w).toNat := by rw [List.length_take]; omega
    have hopt : (pl.drop (klen w).toNat).length = optLen (saltBit w) + optLen (personalBit w) := by
      rw [List.length_drop]; omega
    refine ⟨decide_eq_true (by rw [hk]; exact (klen w).isLt), ?_⟩
    simp only [encode, assemble, encodeWord, encodePayload, isSome_optBytes16, hk, BitVec.ofNat_toNat, BitVec.setWidth_eq,
      List.append_assoc, ← List.drop_drop, optToBytes_append hopt, List.take_append_drop]
    exact congrArg (Packet.mk · pl) hw
  | update ho =>
    cases hd
    rw [paylen, if_neg (by simp [ho]), if_neg (by simp [ho]), if_pos ho] at hp
    have hw := append_fields_update w
    rw [ho] at hw
    have htake : pl.take (lenField w).toNat = pl := List.take_of_length_le (by omega)
    refine ⟨decide_eq_true (by rw [htake, hp]; exact (lenField w).isLt), ?_⟩
    simp only [encode, assemble, encodeWord, encodePayload, htake, hp, BitVec.ofNat_toNat, BitVec.setWidth_eq]
    exact congrArg (Packet.mk · pl) hw
  | final ho hr =>
    cases hd
    rw [paylen, if_neg (by simp [ho]), if_neg (by simp [ho]), if_neg (by simp [ho]), List.length_eq_zero_iff] at hp
    have hw := append_fields_final w
    rw [ho, hr] at hw
    refine ⟨rfl, ?_⟩
    simp only [encode, assemble, encodeWord, encodePayload, hp]
    exact congrArg (Packet.mk · []) hw
  | initReserved ho hr => cases hd
  | initKeyReserved ho hr => cases hd
  | finalReserved ho hr => cases hd
  | reservedOpcode h1 h2 h3 h4 => cases hd

/-- Settles O37: each format's fields, with its reserved bits clear, are all the bits of the word. -/
theorem encodeDecode : Obligations.EncodeDecode := fun _ _ hp hd => encode_of_decode hp hd

end Sys2Proof

namespace Sys2Proof.Machine

/-! ### One step on a whole packet -/

/-- A whole packet at the front of the stream, with no reset aimed at it, is consumed and run (R80, R87). -/
theorem step_sendPacket {s : State} {p : Packet} {rest : List HostEvent} (hp : wholePacket p) (hrest : noResetDuring rest)
    (hinput : s.input = sendPacket p ++ rest) : step s = runPacket p { s with input := rest } :=
  step_of_fetch_packet (by rw [hinput, fetch_sendPacket hp hrest])

theorem runPacket_instr {p : Packet} {i : Instr} (h : decode p = .instr i) (s : State) : runPacket p s = exec i s := by
  rw [runPacket, h]

/-- Settles O30: the packet is fetched whole, and its decoding tells which of the two is run. -/
theorem stepRunsDecodedPacket : Obligations.StepRunsDecodedPacket := by
  intro s p rest hp hrest hinput
  rw [step_sendPacket hp hrest hinput]
  exact ⟨fun i hi => runPacket_instr hi _, fun why hwhy => by rw [runPacket, hwhy]; rfl⟩

/-- Settles O31: the packet the encoder makes is whole and decodes to the command. -/
theorem stepRunsEncodedCommand : Obligations.StepRunsEncodedCommand := fun s i rest hi hrest hinput =>
  (stepRunsDecodedPacket s (encode i) rest (wholePacket_encode hi) hrest hinput).1 i (decode_encode hi)

@[simp] theorem length_bytesOfNat (n v : Nat) : (bytesOfNat n v).length = n := by
  induction n generalizing v with
  | zero => rfl
  | succ n ih => rw [bytesOfNat, List.length_cons, ih]

theorem wholePacket_tablePacket (nbits w : Nat) : wholePacket (tablePacket nbits w) := length_bytesOfNat _ _

/-- The probe drops the resets aimed at the command it puts in front (notes/assumptions/17.md). -/
theorem noResetDuring_dropWhile (es : List HostEvent) :
    noResetDuring (es.dropWhile fun e => decide (e = .resetDuringCommand)) := by
  intro h
  have hhead := List.head?_dropWhile_not (fun e => decide (e = HostEvent.resetDuringCommand)) es
  rw [h] at hhead
  simp at hhead

/-- Settles O35: the table's packet is whole, and no reset is left behind it to hit its command. -/
theorem fetchWordRuns : Obligations.FetchWordRuns := by
  intro s nbits w i hi
  have hdec : decode (tablePacket nbits w) = .instr i := by
    rw [decodeTableWord] at hi
    cases hd : decode (tablePacket nbits w) with
    | instr j =>
      rw [hd] at hi
      rw [Option.some.inj hi]
    | illegal why =>
      rw [hd] at hi
      cases hi
  exact ⟨_, (stepRunsDecodedPacket (s.withFetchWord nbits w) _ _ (wholePacket_tablePacket nbits w)
    (noResetDuring_dropWhile s.input) rfl).1 i hdec, noResetDuring_dropWhile s.input, List.dropWhile_suffix _⟩

/-! ### Part of a packet -/

/-- A byte string that holds no whole packet ends before eight bytes, or before the payload its word asks for. -/
theorem framePacket_none_cases {bs : List Byte} (h : framePacket bs = none) :
    bs.length < 8 ∨ ∃ w8 pl, bs = w8 ++ pl ∧ w8.length = 8 ∧ pl.length < paylen (load64 (takeVec 8 w8)) := by
  rw [framePacket] at h
  by_cases h8 : bs.length < 8
  · exact .inl h8
  · rw [if_neg h8] at h
    dsimp only at h
    have hword : takeVec 8 bs = takeVec 8 (bs.take 8) := takeVec_congr (by rw [List.take_take]; rfl)
    split_ifs at h with hpay
    refine .inr ⟨bs.take 8, bs.drop 8, (List.take_append_drop 8 bs).symm, by rw [List.length_take]; omega, ?_⟩
    rw [← hword, List.length_drop]
    omega

theorem takeBytes_of_length {n : Nat} {bs : List Byte} (h : bs.length = n) (rest : List HostEvent) :
    takeBytes n (bs.map HostEvent.byte ++ rest) = .bytes bs rest := h ▸ takeBytes_all bs rest

/-- A reset before a packet is whole is what the core finds (R220). -/
theorem fetch_reset {bs : List Byte} (h : framePacket bs = none) {r : HostEvent}
    (hr : r = .reset ∨ r = .resetDuringCommand) (rest : List HostEvent) :
    fetch (bs.map HostEvent.byte ++ r :: rest) = .reset rest := by
  rw [fetch, if_neg (by simp)]
  obtain h8 | ⟨w8, pl, rfl, h8, hpl⟩ := framePacket_none_cases h
  · rw [takeBytes_reset h8 hr]
  · rw [List.map_append, List.append_assoc, takeBytes_of_length h8]
    simp only [fetchPayload, takeBytes_reset hpl hr]

/-- A stream that ends before a packet is whole is waited for (R226). -/
theorem fetch_incomplete {bs : List Byte} (h : framePacket bs = none) (hne : bs ≠ []) :
    fetch (bs.map HostEvent.byte) = .incomplete := by
  rw [fetch, if_neg (by simpa using hne)]
  obtain h8 | ⟨w8, pl, rfl, h8, hpl⟩ := framePacket_none_cases h
  · rw [takeBytes_short h8]
  · rw [List.map_append, takeBytes_of_length h8]
    simp only [fetchPayload, takeBytes_short hpl]

/-- A reset during the command of a whole packet drops the packet (R220). -/
theorem fetch_resetDuringCommand {p : Packet} (hp : wholePacket p) (rest : List HostEvent) :
    fetch (sendPacket p ++ .resetDuringCommand :: rest) = .reset rest := by
  rw [fetch, if_neg (by simp), sendPacket, Packet.bytes, List.map_append, List.append_assoc,
    takeBytes_of_length (by simp)]
  simp only [takeVec_toList, load64_store64, fetchPayload, takeBytes_of_length hp]
  rfl

/-- A step that finds a reset is the reset event, and nothing is answered (R220, R221). -/
theorem step_of_fetch_reset {s : State} {rest : List HostEvent} (h : fetch s.input = .reset rest) :
    step s = .next (resetEvent rest s) := by
  rw [step, h]

/-- Settles O33: in each of the three places the core finds the reset and drops what was received. -/
theorem resetLeavesIdle : Obligations.ResetLeavesIdle := by
  intro s rest h
  have hfetch : fetch s.input = .reset rest := by
    obtain ⟨bs, hbs, hinput | hinput⟩ | ⟨p, hp, hinput⟩ := h
    · rw [hinput, fetch_reset hbs (.inl rfl)]
    · rw [hinput, fetch_reset hbs (.inr rfl)]
    · rw [hinput, fetch_resetDuringCommand hp]
  exact ⟨_, step_of_fetch_reset hfetch, by simp⟩

/-- Settles O34: the bytes run out before the word or before its payload does. -/
theorem incompletePacketWaits : Obligations.IncompletePacketWaits := by
  intro s bs h hinput
  by_cases hne : bs = []
  · subst hne
    rw [step, hinput]
    rfl
  · rw [step, hinput, fetch_incomplete h hne, if_neg hne]

end Sys2Proof.Machine
end

section
/-! What every command does: answer its error and nothing else, or act on the hash part of the state and answer OK
(spec/60_exceptions.md R194, R195); and what follows for the phase, the streams and earlier sessions (spec/10_state.md R28;
spec/20_memory.md R57, R67; spec/43_state_machine.md R151). -/

namespace Sys2Proof.Machine

/-- The hash part, the phase, the streams and the reset count are the whole state. -/
theorem State.eq_of_hashPart_eq {s t : State} (hpart : s.hashPart = t.hashPart) (hphase : s.phase = t.phase)
    (hinput : s.input = t.input) (hresponses : s.responses = t.responses) (hresets : s.resets = t.resets) : s = t := by
  cases s
  cases t
  simp only [State.hashPart, State.mk.injEq] at hpart ⊢
  simp_all

/-- What a command that succeeds makes of the hash part (R153 to R156). -/
def okPart : Instr → State → State
  | .init dlen salt personal, _ => startWith (packParams dlen.toNat 0 (orZeros salt) (orZeros personal)) State.reset
  | .initKey dlen key salt personal, _ =>
    absorb (keyBlock key) (startWith (packParams dlen.toNat key.length (orZeros salt) (orZeros personal)) State.reset)
  | .update bytes, u => absorb bytes u
  | .final _, u => compressLast (compressFirstOfTwo u)

/-- The data of its response: none but for FINAL's digest (R96). -/
def okData : Instr → State → List Byte
  | .final olen, u => (serialize (compressLast (compressFirstOfTwo u)).h).take olen.toNat
  | _, _ => []

/-- A command with an error answers it and changes nothing else (R195). -/
theorem exec_of_commandError {i : Instr} {s : State} {e : CmdError} (h : commandError i s.phase = some e) :
    exec i s = .next (s.answered (.error e)) := by
  have ha := exec_answers i s
  rw [h] at ha
  exact ha

/-- A command without an error completes, with its `okData`, and leaves its `okPart` of the hash part (R194). -/
theorem exec_of_noError {i : Instr} {s : State} (h : commandError i s.phase = none) :
    ∃ t, exec i s = .next t ∧ Completes i (okData i s.hashPart) s t ∧ t.hashPart = okPart i s.hashPart := by
  cases i with
  | init dlen salt personal =>
    rw [commandError] at h
    split_ifs at h with hd
    exact ⟨_, execInit_legal (eq_true_of_ne_false hd) salt personal s, ⟨rfl, rfl, rfl, rfl⟩, hashPart_startWith _ s⟩
  | initKey dlen key salt personal =>
    rw [commandError] at h
    split_ifs at h with hd hk h0
    exact ⟨_, execInitKey_legal (eq_true_of_ne_false hd) (Nat.le_of_not_lt hk) h0 salt personal s,
      ⟨rfl, by simp [okData], by simp, by simp⟩,
      (hashPart_absorb _ _).trans (congrArg (absorb _) (hashPart_startWith _ s))⟩
  | update bytes =>
    exact ⟨_, execUpdate_live ((phaseError_none_iff s.phase).mp h) bytes, ⟨rfl, by simp [okData], by simp, by simp⟩,
      hashPart_absorb bytes s⟩
  | final olen =>
    rw [commandError, Option.or_eq_none_iff] at h
    obtain ⟨hphase, hlen⟩ := h
    split_ifs at hlen with ho
    obtain ⟨-, -, hinput, hresponses, hresets⟩ := compressHalves_frame s
    refine ⟨_, execFinal_live ((phaseError_none_iff s.phase).mp hphase) (eq_true_of_ne_false ho),
      ⟨rfl, ?_, hinput, hresets⟩, hashPart_compressHalves s⟩
    rw [okData, ← hashPart_compressHalves]
    exact congrArg (· ++ _) hresponses

/-! ### Commands without an error -/

theorem lengthLegal_toNat {b : Byte} (h : legalLength b) : ¬ lengthLegal b.toNat = false := by
  rw [(lengthLegal_iff b.toNat).mpr h]
  decide

theorem commandError_init {dlen : Byte} (hd : legalLength dlen) (salt personal : Option Bytes16) (phase : Phase) :
    commandError (.init dlen salt personal) phase = none := if_neg (lengthLegal_toNat hd)

theorem commandError_initKey {dlen : Byte} (hd : legalLength dlen) {key : List Byte} (hk : legalKey key)
    (salt personal : Option Bytes16) (phase : Phase) : commandError (.initKey dlen key salt personal) phase = none := by
  rw [commandError, if_neg (lengthLegal_toNat hd), if_neg (show ¬ maxKeyLength < key.length from Nat.not_lt.mpr hk.2),
    if_neg (Nat.ne_of_gt hk.1)]

theorem commandError_update {phase : Phase} (hs : phase.live) (bytes : List Byte) :
    commandError (.update bytes) phase = none := (phaseError_none_iff phase).mpr hs

theorem commandError_final {phase : Phase} (hs : phase.live) {olen : Byte} (ho : legalLength olen) :
    commandError (.final olen) phase = none := by
  rw [commandError, (phaseError_none_iff phase).mpr hs, if_neg (lengthLegal_toNat ho)]
  rfl

theorem commandError_init_badLength {dlen : Byte} (hd : ¬ legalLength dlen) (salt personal : Option Bytes16)
    (phase : Phase) : commandError (.init dlen salt personal) phase = some .invalidParameter :=
  if_pos (Bool.eq_false_iff.mpr (mt (lengthLegal_iff dlen.toNat).mp hd))

theorem commandError_initKey_badLength {dlen : Byte} (hd : ¬ legalLength dlen) (key : List Byte)
    (salt personal : Option Bytes16) (phase : Phase) :
    commandError (.initKey dlen key salt personal) phase = some .invalidParameter :=
  if_pos (Bool.eq_false_iff.mpr (mt (lengthLegal_iff dlen.toNat).mp hd))

theorem commandError_initKey_longKey {dlen : Byte} (hd : legalLength dlen) {key : List Byte} (hk : 64 < key.length)
    (salt personal : Option Bytes16) (phase : Phase) :
    commandError (.initKey dlen key salt personal) phase = some .invalidParameter := by
  rw [commandError, if_neg (lengthLegal_toNat hd)]
  exact if_pos hk

theorem commandError_initKey_noKey {dlen : Byte} (hd : legalLength dlen) {key : List Byte} (hk : key.length = 0)
    (salt personal : Option Bytes16) (phase : Phase) :
    commandError (.initKey dlen key salt personal) phase = some .invalidKey := by
  rw [commandError, if_neg (lengthLegal_toNat hd), if_neg (by rw [hk]; decide), if_pos hk]

/-! ### What follows for every command -/

/-- Settles O21: in each of the two ways a command ends, one response is appended and the rest of the streams is kept. -/
theorem everyCommandIsAnsweredOnce : Obligations.EveryCommandIsAnsweredOnce := by
  intro i s
  obtain ⟨e, he⟩ | ⟨d, t, ht, hc⟩ := exec_error_or_completes i s
  · exact ⟨_, .error e, he, rfl, rfl, rfl⟩
  · exact ⟨t, .ok d, ht, hc.responses, hc.input, hc.resets⟩

/-- A command does not read what the host sends after it (R57). -/
theorem exec_withInput {i : Instr} {s t : State} (h : exec i s = .next t) (es : List HostEvent) :
    exec i { s with input := es } = .next { t with input := es } := by
  cases he : commandError i s.phase with
  | some e =>
    cases Host.Outcome.next.inj (h.symm.trans (exec_of_commandError he))
    exact exec_of_commandError (s := { s with input := es }) he
  | none =>
    obtain ⟨u, hu, hc, hpart⟩ := exec_of_noError he
    cases Host.Outcome.next.inj (h.symm.trans hu)
    obtain ⟨u', hu', hc', hpart'⟩ := exec_of_noError (s := { s with input := es }) he
    rw [hu', State.eq_of_hashPart_eq (s := u') (t := { t with input := es })]
    · exact hpart'.trans hpart.symm
    · exact hc'.phase.trans hc.phase.symm
    · exact hc'.input
    · exact hc'.responses.trans hc.responses.symm
    · exact hc'.resets.trans hc.resets.symm

theorem State.agree_refl (s : State) : s.Agree s where
  phase := rfl
  input := rfl
  responses := rfl
  events := rfl
  resets := rfl
  hash := fun _ => ⟨rfl, rfl, rfl, rfl, rfl, rfl⟩
  fill := fun _ => rfl
  live := fun _ _ _ => rfl

/-- The error of a command is the same in Fresh and Absorbing (R28). -/
theorem commandError_fresh (i : Instr) : commandError i .fresh = commandError i .absorbing := by
  cases i <;> rfl

/-- Settles O29: the two phases give a command the same error; without one it overwrites the phase, so the two next states
are one and the same. -/
theorem freshAndAbsorbingBehaveAlike : Obligations.FreshAndAbsorbingBehaveAlike := by
  intro i s hs
  cases he : commandError i s.phase with
  | some e =>
    have he' : commandError i { s with phase := .absorbing }.phase = some e := by rw [← commandError_fresh, ← hs, he]
    exact ⟨_, _, .error e, exec_of_commandError he, exec_of_commandError he', rfl, rfl, nofun,
      fun _ _ => ⟨hs, State.agree_refl _⟩⟩
  | none =>
    have he' : commandError i { s with phase := .absorbing }.phase = none := by rw [← commandError_fresh, ← hs, he]
    obtain ⟨t, ht, hc, hpart⟩ := exec_of_noError he
    obtain ⟨t', ht', hc', hpart'⟩ := exec_of_noError he'
    obtain rfl : t' = t := State.eq_of_hashPart_eq (hpart'.trans hpart.symm) (hc'.phase.trans hc.phase.symm)
      (hc'.input.trans hc.input.symm) (hc'.responses.trans hc.responses.symm) (hc'.resets.trans hc.resets.symm)
    exact ⟨t', t', _, ht, ht', hc.responses, hc.responses, fun _ _ => State.agree_refl _, nofun⟩

/-- A command that succeeds and does not read the hash part leads any two states with the same streams to one state. -/
theorem agreeOutcome_of_okPart_const {i : Instr} {s s' : State} (he : commandError i s.phase = none)
    (he' : commandError i s'.phase = none) (hpart : okPart i s.hashPart = okPart i s'.hashPart)
    (hdata : okData i s.hashPart = okData i s'.hashPart) (hinput : s.input = s'.input)
    (hresponses : s.responses = s'.responses) (hresets : s.resets = s'.resets) :
    AgreeOutcome (exec i s) (exec i s') := by
  obtain ⟨t, ht, hc, ht_part⟩ := exec_of_noError he
  obtain ⟨t', ht', hc', ht_part'⟩ := exec_of_noError he'
  obtain rfl : t = t' := State.eq_of_hashPart_eq (by rw [ht_part, ht_part', hpart]) (hc.phase.trans hc'.phase.symm)
    (by rw [hc.input, hc'.input, hinput]) (by rw [hc.responses, hc'.responses, hresponses, hdata])
    (by rw [hc.resets, hc'.resets, hresets])
  rw [ht, ht']
  exact State.agree_refl t

/-- Settles O27: START overwrites the hash part whole, and the command sets the phase. -/
theorem newSessionForgetsTheOld : Obligations.NewSessionForgetsTheOld := by
  intro s s' dlen key salt personal hd hinput hresponses hresets
  refine ⟨?_, fun hk => ?_⟩
  · exact agreeOutcome_of_okPart_const (commandError_init hd salt personal _) (commandError_init hd salt personal _) rfl rfl
      hinput hresponses hresets
  · exact agreeOutcome_of_okPart_const (commandError_initKey hd hk salt personal _)
      (commandError_initKey hd hk salt personal _) rfl rfl hinput hresponses hresets

/-! ### Runs of commands -/

/-- The commands of a run hand their last state to the commands after them (R67). -/
theorem runCommands_append {is : List Instr} {s t : State} (h : runCommands is s = .next t) (js : List Instr) :
    runCommands (is ++ js) s = runCommands js t := by
  induction is generalizing s with
  | nil => rw [List.nil_append, Host.Outcome.next.inj h]
  | cons i is ih =>
    obtain ⟨u, -, hu, -⟩ := everyCommandIsAnsweredOnce i s
    rw [runCommands_cons hu] at h
    rw [List.cons_append, runCommands_cons hu, ih h]

theorem programEvents_cons (i : Instr) (is : List Instr) :
    programEvents ((i :: is).map AsmLine.command) = sendPacket (encode i) ++ programEvents (is.map AsmLine.command) := by
  simp [programEvents, AsmLine.packets]

theorem sendPacket_cons (p : Packet) : ∃ b es, sendPacket p = HostEvent.byte b :: es := by
  have h : 0 < (sendPacket p).length := by simp [sendPacket]
  obtain ⟨b, bs, hbs⟩ := List.exists_cons_of_length_pos (l := p.bytes) (by simp)
  exact ⟨b, bs.map HostEvent.byte, by rw [sendPacket, hbs, List.map_cons]⟩

/-- Packets between a command and the host's later events keep resets off it. -/
theorem noResetDuring_programEvents {rest : List HostEvent} (hrest : noResetDuring rest) (is : List Instr) :
    noResetDuring (programEvents (is.map AsmLine.command) ++ rest) := by
  cases is with
  | nil => exact hrest
  | cons i is =>
    obtain ⟨b, es, hes⟩ := sendPacket_cons (encode i)
    rw [programEvents_cons, hes]
    simp

theorem core_run_succ {s t : State} (h : step s = .next t) (n : Nat) : core.run (n + 1) s = core.run n t := by
  have hcore : core.step s = .next t := h
  simp only [Host.Core.run, hcore]

/-- Settles O32: by induction on the commands; each step runs the first and leaves the packets of the others, which no
command reads. -/
theorem streamRunsCommandsInOrder : Obligations.StreamRunsCommandsInOrder := by
  intro s is rest hwf hrest hinput
  induction is generalizing s with
  | nil =>
    obtain rfl : s.input = rest := hinput
    rfl
  | cons i is ih =>
    have hstep := stepRunsEncodedCommand s i _ (hwf i List.mem_cons_self) (noResetDuring_programEvents hrest is)
      (by rw [hinput, programEvents_cons, List.append_assoc])
    obtain ⟨t, r, ht, -, htinput, -⟩ :=
      everyCommandIsAnsweredOnce i { s with input := programEvents (is.map AsmLine.command) ++ rest }
    have hrun := ih t (fun j hj => hwf j (List.mem_cons_of_mem i hj)) htinput
    exact ((core_run_succ (hstep.trans ht) is.length).trans hrun).trans (runCommands_cons (exec_withInput ht rest) is).symm

end Sys2Proof.Machine
end

section
/-! A running session seen apart from its dead bytes (spec/10_state.md R26, R40): the chaining part of the state and the
pending input, on which ABSORB and FINAL act as functions of the pending bytes (spec/43_state_machine.md R152, R156). -/

namespace Sys2Proof.Machine

/-! ### Reading a buffer that was written -/

theorem Memory.bufRead_congr {m m' : Memory} {i n : Nat} (h : ∀ a, i ≤ a → a < i + n → m.read a = m'.read a) :
    m.bufRead i n = m'.bufRead i n := by
  induction n generalizing i with
  | zero => rfl
  | succ n ih =>
    rw [Memory.bufRead_succ, Memory.bufRead_succ, h i (by omega) (by omega), ih fun a hlo hhi => h a (by omega) (by omega)]

theorem Memory.bufRead_bufWrite {m : Memory} (hm : m.wf = true) (i : Nat) (bs : List Byte) :
    (m.bufWrite i bs).bufRead i bs.length = bs := by
  apply List.ext_getElem (Memory.length_bufRead ..)
  intro k _ hk
  rw [List.getElem_eq_iff, Memory.getElem?_bufRead _ _ hk, Memory.read_bufWrite hm, if_pos (by omega),
    Nat.add_sub_cancel_left, List.getD_eq_getElem _ _ hk]

/-- Bytes written behind the first `i` are read behind them (R51, R52). -/
theorem Memory.bufRead_zero_bufWrite {m : Memory} (hm : m.wf = true) (i : Nat) (bs : List Byte) :
    (m.bufWrite i bs).bufRead 0 (i + bs.length) = m.bufRead 0 i ++ bs := by
  rw [Memory.bufRead_add, Nat.zero_add, Memory.bufRead_bufWrite hm]
  congr 1
  exact Memory.bufRead_congr fun a _ ha => by rw [Memory.read_bufWrite hm, if_neg (by omega)]

theorem Memory.take_bufRead (m : Memory) (i : Nat) {n k : Nat} (h : n ≤ k) : (m.bufRead i k).take n = m.bufRead i n := by
  obtain ⟨j, rfl⟩ := Nat.exists_eq_add_of_le h
  rw [Memory.bufRead_add, List.take_left' (Memory.length_bufRead ..)]

theorem Memory.drop_bufRead (m : Memory) (n k : Nat) : (m.bufRead 0 (n + k)).drop n = m.bufRead n k := by
  rw [Memory.bufRead_add, List.drop_left' (Memory.length_bufRead ..), Nat.zero_add]

/-- Block 0 is made of the first 128 bytes of any longer read (R53). -/
theorem Memory.block0_eq (m : Memory) {n : Nat} (h : 128 ≤ n) : m.block0 = takeVec 128 (m.bufRead 0 n) :=
  takeVec_congr (by rw [Memory.take_bufRead m 0 h, Memory.take_bufRead m 0 (Nat.le_refl _)])

theorem takeVec_append_of_le {n : Nat} {l : List Byte} (h : n ≤ l.length) (l' : List Byte) :
    takeVec n (l ++ l') = takeVec n l := takeVec_congr (List.take_append_of_le_length h)

/-- Zeros at the end of a block are the padding `takeVec` gives anyway. -/
theorem takeVec_append_zeros (n : Nat) (l : List Byte) (k : Nat) : takeVec n (l ++ List.replicate k 0) = takeVec n l := by
  ext i hi : 1
  simp only [takeVec, Vector.getElem_ofFn, List.getD_eq_getElem?_getD, List.getElem?_append, List.getElem?_replicate]
  split
  · rfl
  · rw [List.getElem?_eq_none (by omega)]
    split <;> rfl

/-! ### The pending input -/

@[simp] theorem length_pending (s : State) : s.pending.length = s.buflen.val := Memory.length_bufRead ..

/-- A pending byte is in `buf` at its place (R26). -/
theorem getElem?_pending (s : State) {a : Nat} (ha : a < s.buflen.val) : s.pending[a]? = some (s.buf.read a) := by
  rw [State.pending, Memory.getElem?_bufRead _ _ ha, Nat.zero_add]

theorem pending_appendBytes {s : State} (hs : s.buf.wf = true) {bs : List Byte} (h : s.buflen.val + bs.length ≤ 256) :
    (appendBytes bs s h).pending = s.pending ++ bs := Memory.bufRead_zero_bufWrite hs _ bs

theorem pending_fillBuffer {s : State} (hs : s.buf.wf = true) {bs : List Byte} (h : 256 ≤ s.buflen.val + bs.length) :
    (fillBuffer bs s).pending = s.pending ++ bs.take (256 - s.buflen.val) := by
  have hlen : s.buflen.val + (bs.take (256 - s.buflen.val)).length = 256 := by
    have := s.buflen.isLt
    rw [List.length_take]
    omega
  have hread := Memory.bufRead_zero_bufWrite hs s.buflen.val (bs.take (256 - s.buflen.val))
  rw [hlen] at hread
  exact hread

/-- The shift drops the first block of a full buffer (R53, R152). -/
theorem pending_shiftLeft {s : State} (hs : s.buf.wf = true) (hfull : s.buflen = 256) :
    (shiftLeft s).pending = s.pending.drop 128 := by
  have hpending : s.pending = s.buf.bufRead 0 (128 + 128) := by rw [State.pending, hfull]; rfl
  have hread := Memory.bufRead_bufWrite hs 0 (s.buf.bufRead 128 128)
  rw [Memory.length_bufRead] at hread
  rw [State.pending, shiftLeft_buf, shiftLeft_buflen, hpending, Memory.drop_bufRead]
  exact hread

theorem fillBuffer_wf {s : State} (hs : s.buf.wf = true) (bs : List Byte) : (fillBuffer bs s).buf.wf = true :=
  Memory.bufWrite_wf hs _ _

theorem pending_overflowPass {s : State} (hs : s.buf.wf = true) {bs : List Byte} (h : 256 < s.buflen.val + bs.length) :
    (overflowPass bs s).pending = (s.pending ++ bs.take (256 - s.buflen.val)).drop 128 := by
  rw [← pending_fillBuffer hs h.le]
  exact pending_shiftLeft (s := compressBlock (incCounter 128 (fillBuffer bs s))) (fillBuffer_wf hs bs) rfl

/-- The block an overflowing pass compresses is the first 128 bytes of the pending input and the new input (R152). -/
theorem fillBuffer_block0 {s : State} (hs : s.buf.wf = true) {bs : List Byte} (h : 256 < s.buflen.val + bs.length) :
    (fillBuffer bs s).buf.block0 = takeVec 128 (s.pending ++ bs.take (256 - s.buflen.val)) := by
  rw [← pending_fillBuffer hs h.le]
  exact Memory.block0_eq _ (n := 256) (by decide)

/-! ### The chaining part and the running session -/

/-- The record that COMPRESS of `block` under the counter and the flags of `s` makes (R43). -/
def compressEvent (block : Vector Byte 128) (s : State) : CompressEvent where
  hIn := s.h
  block := block
  t0 := s.t0
  t1 := s.t1
  f0 := s.f0
  f1 := s.f1
  hOut := compress s.h block s.t0 s.t1 s.f0 s.f1

theorem compressEvent_valid (block : Vector Byte 128) (s : State) : (compressEvent block s).valid := rfl

theorem compressEvent_T (block : Vector Byte 128) (s : State) : (compressEvent block s).T = s.T := rfl

/-- COMPRESS of a block that is given, with its record (R126, R43). -/
def compressOn (block : Vector Byte 128) (s : State) : State :=
  { s with h := (compressEvent block s).hOut, events := s.events ++ [compressEvent block s] }

theorem compressBlock_eq_compressOn (s : State) : compressBlock s = compressOn s.buf.block0 s := rfl

/-- The hash part without the buffer: the chaining value, the counter, the flags, the tree marker and the event log. -/
def State.chainPart (s : State) : State := { s.hashPart with buf := [], buflen := 0 }

/-- The fields of the chaining part, one by one. -/
theorem State.fields_of_chainPart_eq {s u : State} (h : s.chainPart = u) :
    s.h = u.h ∧ s.t0 = u.t0 ∧ s.t1 = u.t1 ∧ s.f0 = u.f0 ∧ s.f1 = u.f1 ∧ s.lastNode = u.lastNode ∧
      s.events = u.events := by
  subst h
  exact ⟨rfl, rfl, rfl, rfl, rfl, rfl, rfl⟩

/-- A session as it runs: its chaining part and its pending input. -/
structure Running where
  chain : State
  pending : List Byte

/-- What a state holds of the session it runs. -/
def State.running (s : State) : Running := ⟨s.chainPart, s.pending⟩

/-- More input, not yet compressed. -/
def Running.append (bs : List Byte) (r : Running) : Running := { r with pending := r.pending ++ bs }

/-- Count one block, compress it with the flags as they are, and drop it from the pending input (R152). -/
def Running.pass (r : Running) : Running :=
  ⟨compressOn (takeVec 128 r.pending) (incCounter 128 r.chain), r.pending.drop 128⟩

/-- As many passes as the pending input makes ABSORB do (R37, R152). -/
def Running.drain (r : Running) : Running := Running.pass^[compressionsBefore r.pending.length] r

/-- FINAL's last block: count the bytes, set the flags, compress the pending input padded with zeros (R156). -/
def Running.last (r : Running) : State :=
  compressOn (takeVec 128 r.pending) (markLast (incCounter r.pending.length r.chain))

/-- FINAL (R156). -/
def Running.finish (r : Running) : State := if 128 < r.pending.length then r.pass.last else r.last

theorem length_running_pending (s : State) : s.running.pending.length = s.buflen.val := length_pending s

theorem length_pending_append (s : State) (bytes : List Byte) :
    (s.running.append bytes).pending.length = s.buflen.val + bytes.length := by
  rw [Running.append, List.length_append, length_running_pending]

theorem running_appendBytes {s : State} (hs : s.buf.wf = true) {bs : List Byte} (h : s.buflen.val + bs.length ≤ 256) :
    (appendBytes bs s h).running = s.running.append bs := congrArg (Running.mk s.chainPart) (pending_appendBytes hs h)

theorem chainPart_compressOn (block : Vector Byte 128) (s : State) :
    (compressOn block s).chainPart = compressOn block s.chainPart := rfl

theorem chainPart_shiftLeft (s : State) : (shiftLeft s).chainPart = s.chainPart := by
  simp only [shiftLeft, State.chainPart, State.hashPart]

theorem chainPart_overflowPass (bs : List Byte) (s : State) : (overflowPass bs s).chainPart =
    compressOn (fillBuffer bs s).buf.block0 (incCounter 128 s.chainPart) := chainPart_shiftLeft _

/-- A pass of the loop is a pass on the pending input and the bytes that fill the buffer (R152). -/
theorem running_overflowPass {s : State} (hs : s.buf.wf = true) {bs : List Byte} (h : 256 < s.buflen.val + bs.length) :
    (overflowPass bs s).running = (s.running.append (bs.take (256 - s.buflen.val))).pass := by
  rw [State.running, chainPart_overflowPass, pending_overflowPass hs h, fillBuffer_block0 hs h]
  rfl

theorem append_append (r : Running) (bs cs : List Byte) : (r.append bs).append cs = r.append (bs ++ cs) := by
  simp only [Running.append, List.append_assoc]

theorem append_pass {r : Running} (h : 128 ≤ r.pending.length) (bs : List Byte) :
    r.pass.append bs = (r.append bs).pass := by
  simp only [Running.append, Running.pass, takeVec_append_of_le h, List.drop_append_of_le_length h]

theorem compressionsBefore_of_le {n : Nat} (h : n ≤ 256) : compressionsBefore n = 0 := by
  rw [compressionsBefore]
  omega

theorem compressionsBefore_of_lt {n : Nat} (h : 256 < n) : compressionsBefore n = compressionsBefore (n - 128) + 1 := by
  rw [compressionsBefore, compressionsBefore]
  omega

theorem drain_of_le {r : Running} (h : r.pending.length ≤ 256) : r.drain = r := by
  rw [Running.drain, compressionsBefore_of_le h]
  rfl

/-- With more than two blocks pending, the first is compressed (R152, R158). -/
theorem drain_of_lt {r : Running} (h : 256 < r.pending.length) : r.drain = r.pass.drain := by
  rw [Running.drain, compressionsBefore_of_lt h, Function.iterate_succ_apply, Running.drain, Running.pass,
    List.length_drop]

/-- ABSORB compresses what the pending input and the new input together have too much (R152). -/
theorem running_absorb (bs : List Byte) {s : State} (hs : s.buf.wf = true) :
    (absorb bs s).running = (s.running.append bs).drain := by
  induction bs, s using absorb_induction with
  | hnil s =>
    have hlt := s.buflen.isLt
    rw [absorb_nil, drain_of_le (by rw [length_pending_append, List.length_nil]; omega), Running.append, List.append_nil]
  | hfits bs s hne hf =>
    rw [absorb_fits hne hf, running_appendBytes hs hf, drain_of_le (by rw [length_pending_append]; exact hf)]
  | hover bs s h ih =>
    have hwf : (overflowPass bs s).buf.wf = true := by
      rw [overflowPass_buf]
      exact Memory.bufWrite_wf (fillBuffer_wf hs bs) _ _
    have hlt := s.buflen.isLt
    have hfull : 128 ≤ (s.running.append (bs.take (256 - s.buflen.val))).pending.length := by
      rw [length_pending_append, List.length_take]
      omega
    have hmore : 256 < (s.running.append bs).pending.length := by
      rw [length_pending_append]
      exact h
    calc (absorb bs s).running
        = ((overflowPass bs s).running.append (bs.drop (256 - s.buflen.val))).drain := by rw [absorb_overflow h, ih hwf]
      _ = (s.running.append bs).pass.drain := by
        rw [running_overflowPass hs h, append_pass hfull, append_append, List.take_append_drop]
      _ = (s.running.append bs).drain := (drain_of_lt hmore).symm

/-! ### FINAL -/

theorem running_compressFirstOfTwo {s : State} (hs : s.buf.wf = true) :
    (compressFirstOfTwo s).running = if 128 < s.buflen.val then s.running.pass else s.running := by
  split_ifs with h
  · have hsplit : s.buflen.val = 128 + (s.buflen.val - 128) := by omega
    have hblock : s.buf.block0 = takeVec 128 s.pending := Memory.block0_eq _ h.le
    have hread := Memory.bufRead_bufWrite hs 0 (s.buf.bufRead 128 (s.buflen.val - 128))
    have htail : s.pending.drop 128 = s.buf.bufRead 128 (s.buflen.val - 128) := by
      rw [State.pending, hsplit, Memory.drop_bufRead, Nat.add_sub_cancel_left]
    rw [Memory.length_bufRead] at hread
    have hpending : (compressFirstOfTwo s).pending = s.pending.drop 128 := by
      rw [htail, State.pending, compressFirstOfTwo_two h]
      dsimp only
      exact hread
    have hchain : (compressFirstOfTwo s).chainPart = compressOn s.buf.block0 (incCounter 128 s.chainPart) := by
      rw [compressFirstOfTwo_two h]
      rfl
    rw [State.running, hpending, hchain, hblock]
    rfl
  · rw [compressFirstOfTwo_one (Nat.le_of_not_lt h)]

theorem chainPart_compressLast {s : State} (hs : s.buf.wf = true) : (compressLast s).chainPart = s.running.last := by
  have hlen : s.buflen.val + (List.replicate (256 - s.buflen.val) (0 : Byte)).length = 256 := by
    have := s.buflen.isLt
    rw [List.length_replicate]
    omega
  have hblock : (s.buf.bufWrite s.buflen.val (List.replicate (256 - s.buflen.val) 0)).block0 = takeVec 128 s.pending := by
    have hread := Memory.bufRead_zero_bufWrite hs s.buflen.val (List.replicate (256 - s.buflen.val) 0)
    rw [hlen] at hread
    rw [Memory.block0_eq _ (show 128 ≤ 256 by decide), hread, takeVec_append_zeros]
    rfl
  have hchain (padded : Memory) :
      (compressBlock { markLast (incCounter s.buflen.val s) with buf := padded }).chainPart =
        compressOn padded.block0 (markLast (incCounter s.buflen.val s.chainPart)) := rfl
  rw [Running.last, length_running_pending, State.running, ← hblock, ← hchain, compressLast]
  simp only [markLast_buf, markLast_buflen, incCounter_buf, incCounter_buflen]

theorem compressFirstOfTwo_wf {s : State} (hs : s.buf.wf = true) : (compressFirstOfTwo s).buf.wf = true := by
  by_cases h : 128 < s.buflen.val
  · rw [compressFirstOfTwo_two h]
    dsimp only
    exact Memory.bufWrite_wf hs _ _
  · rwa [compressFirstOfTwo_one (Nat.le_of_not_lt h)]

/-- FINAL reads the pending input and the chaining part alone (R156, R40). -/
theorem chainPart_compressHalves {s : State} (hs : s.buf.wf = true) :
    (compressLast (compressFirstOfTwo s)).chainPart = s.running.finish := by
  rw [chainPart_compressLast (compressFirstOfTwo_wf hs), running_compressFirstOfTwo hs, Running.finish,
    length_running_pending]
  split_ifs <;> rfl

/-! ### The commands on a running session -/

/-- INIT with a legal length (R153). -/
theorem exec_init {dlen : Byte} (hd : legalLength dlen) (salt personal : Option Bytes16) (s : State) :
    ∃ t, exec (.init dlen salt personal) s = .next t ∧ Completes (.init dlen salt personal) [] s t ∧ t.buf.wf = true ∧
      t.running = ⟨{ State.reset with h := seed dlen.toNat 0 salt personal }, []⟩ := by
  obtain ⟨t, ht, hc, hpart⟩ := exec_of_noError (commandError_init hd salt personal s.phase)
  exact ⟨t, ht, hc, congrArg (fun u => u.buf.wf) hpart, congrArg State.running hpart⟩

theorem length_keyBlock {key : List Byte} (hk : key.length ≤ 128) : (keyBlock key).length = 128 := by
  rw [keyBlock, List.length_append, List.length_replicate]
  omega

/-- INIT_KEY with legal lengths leaves its key block pending (R154). -/
theorem exec_initKey {dlen : Byte} (hd : legalLength dlen) {key : List Byte} (hk : legalKey key)
    (salt personal : Option Bytes16) (s : State) :
    ∃ t, exec (.initKey dlen key salt personal) s = .next t ∧ Completes (.initKey dlen key salt personal) [] s t ∧
      t.buf.wf = true ∧
      t.running = ⟨{ State.reset with h := seed dlen.toNat key.length salt personal }, keyBlock key⟩ := by
  obtain ⟨t, ht, hc, hpart⟩ := exec_of_noError (commandError_initKey hd hk salt personal s.phase)
  have hlen := length_keyBlock (hk.2.trans (by decide))
  refine ⟨t, ht, hc, (congrArg (fun u => u.buf.wf) hpart).trans (absorb_buf_wf _ _ rfl), ?_⟩
  refine (congrArg State.running hpart).trans ((running_absorb _ rfl).trans ?_)
  refine drain_of_le ?_
  exact hlen.le.trans (by decide)

/-- UPDATE in an open session (R155). -/
theorem exec_update {s : State} (hs : s.phase.live) (hwf : s.buf.wf = true) (bytes : List Byte) :
    ∃ t, exec (.update bytes) s = .next t ∧ Completes (.update bytes) [] s t ∧ t.buf.wf = true ∧
      t.running = (s.running.append bytes).drain := by
  obtain ⟨t, ht, hc, hpart⟩ := exec_of_noError (commandError_update hs bytes)
  exact ⟨t, ht, hc, (congrArg (fun u => u.buf.wf) hpart).trans (absorb_buf_wf bytes s.hashPart hwf),
    (congrArg State.running hpart).trans (running_absorb bytes (s := s.hashPart) hwf)⟩

/-- FINAL with a legal length in an open session (R156). -/
theorem exec_final {s : State} (hs : s.phase.live) (hwf : s.buf.wf = true) {olen : Byte} (ho : legalLength olen) :
    ∃ t, exec (.final olen) s = .next t ∧
      Completes (.final olen) ((serialize s.running.finish.h).take olen.toNat) s t ∧ t.chainPart = s.running.finish := by
  obtain ⟨t, ht, hc, hpart⟩ := exec_of_noError (commandError_final hs ho)
  have hchain := chainPart_compressHalves (s := s.hashPart) hwf
  have hh : (compressLast (compressFirstOfTwo s.hashPart)).h = s.running.finish.h := congrArg (fun u => u.h) hchain
  have hdata : okData (.final olen) s.hashPart = (serialize s.running.finish.h).take olen.toNat := by rw [okData, hh]
  exact ⟨t, ht, hdata ▸ hc, (congrArg State.chainPart hpart).trans hchain⟩

end Sys2Proof.Machine
end

section
/-! The results of the four commands (spec/43_state_machine.md R151 to R156), that dead bytes and closed sessions never matter
(spec/10_state.md R40, R42, R44), and the invariant (spec/10_state.md R36). -/

namespace Sys2Proof.Machine

/-! ### The results of INIT and INIT_KEY -/

/-- Settles O11: START overwrites the whole hash part, and the pending input is empty. -/
theorem initResult : Obligations.InitResult := by
  intro s dlen salt personal
  refine ⟨fun hd => ?_, fun hd => exec_of_commandError (commandError_init_badLength hd salt personal s.phase)⟩
  obtain ⟨t, ht, hc, hwf, hrun⟩ := exec_init hd salt personal s
  obtain ⟨hh, ht0, ht1, hf0, hf1, hnode, hevents⟩ := State.fields_of_chainPart_eq (congrArg Running.chain hrun)
  have hpending : t.pending = [] := congrArg Running.pending hrun
  exact ⟨t, ht, hc.phase, hh, ht0, ht1, hf0, hf1, hnode,
    by rw [← length_pending, hpending]; rfl, hevents, hwf, hc.input, hc.responses, hc.resets⟩

/-- Settles O12: the key block fits the empty buffer, so ABSORB only buffers it; each error comes before any write. -/
theorem initKeyResult : Obligations.InitKeyResult := by
  intro s dlen key salt personal
  refine ⟨fun hd hk => ?_,
    fun hd => exec_of_commandError (commandError_initKey_badLength hd key salt personal s.phase),
    fun hd hk => exec_of_commandError (commandError_initKey_longKey hd hk salt personal s.phase),
    fun hd hk => exec_of_commandError (commandError_initKey_noKey hd hk salt personal s.phase)⟩
  obtain ⟨t, ht, hc, hwf, hrun⟩ := exec_initKey hd hk salt personal s
  obtain ⟨hh, ht0, ht1, hf0, hf1, hnode, hevents⟩ := State.fields_of_chainPart_eq (congrArg Running.chain hrun)
  have hpending : t.pending = keyBlock key := congrArg Running.pending hrun
  exact ⟨t, ht, hc.phase, hh, ht0, ht1, hf0, hf1, hnode,
    by rw [← length_pending, hpending, length_keyBlock (hk.2.trans (by decide))], hpending,
    hevents, hc.input, hc.responses, hc.resets⟩

/-! ### The results of UPDATE -/

/-- The chaining part, the buffer, the phase, the streams and the reset count are the whole state. -/
theorem State.eq_of_chainPart_eq {s t : State} (hchain : s.chainPart = t.chainPart) (hbuf : s.buf = t.buf)
    (hbuflen : s.buflen = t.buflen) (hphase : s.phase = t.phase) (hinput : s.input = t.input)
    (hresponses : s.responses = t.responses) (hresets : s.resets = t.resets) : s = t := by
  refine State.eq_of_hashPart_eq ?_ hphase hinput hresponses hresets
  calc s.hashPart = { s.chainPart with buf := s.buf, buflen := s.buflen } := rfl
    _ = { t.chainPart with buf := t.buf, buflen := t.buflen } := by rw [hchain, hbuf, hbuflen]
    _ = t.hashPart := rfl

/-- Settles O13: nothing is compressed, and a pending byte after the command is an old one or one of the input. -/
theorem updateThatFitsOnlyBuffers : Obligations.UpdateThatFitsOnlyBuffers := by
  intro s bytes hs hwf hfit
  obtain ⟨t, ht, hc, -, hrun⟩ := exec_update hs hwf bytes
  rw [drain_of_le (by rw [length_pending_append]; exact hfit)] at hrun
  have hchain : t.chainPart = s.chainPart := congrArg Running.chain hrun
  have hpending : t.pending = s.pending ++ bytes := congrArg Running.pending hrun
  have hlen : t.buflen.val = s.buflen.val + bytes.length := by
    rw [← length_pending, hpending, List.length_append, length_pending]
  have hread {a : Nat} (ha : a < t.buflen.val) : (s.pending ++ bytes)[a]? = some (t.buf.read a) :=
    hpending ▸ getElem?_pending t ha
  refine ⟨t, ht, State.eq_of_chainPart_eq hchain rfl rfl hc.phase hc.input hc.responses hc.resets, hlen,
    fun a ha => ?_, fun k hk => ?_⟩
  · have h := hread (a := a) (by omega)
    rw [List.getElem?_append_left (by rw [length_pending]; exact ha), getElem?_pending s ha] at h
    exact (Option.some.inj h).symm
  · have h := hread (a := s.buflen.val + k) (by omega)
    rw [List.getElem?_append_right (by rw [length_pending]; omega), length_pending, Nat.add_sub_cancel_left] at h
    rw [List.getD_eq_getElem?_getD, h]
    rfl

/-- Settles O14: `u` is the state after one pass of the loop. -/
theorem updateThatOverflowsCompresses : Obligations.UpdateThatOverflowsCompresses := by
  intro s bytes hs hwf hover
  have hlive : (overflowPass bytes s).phase.live := by simpa [overflowPass] using hs
  have hexec : execUpdate bytes s = execUpdate (bytes.drop (256 - s.buflen.val)) (overflowPass bytes s) := by
    rw [execUpdate_live hs, execUpdate_live hlive, absorb_overflow hover]
  have hblock := fillBuffer_block0 hwf hover
  refine ⟨overflowPass bytes s, compressEvent (fillBuffer bytes s).buf.block0 (incCounter 128 s), hexec, ?_, ?_,
    pending_overflowPass hwf hover, rfl, ?_, (compressEvent_T _ _).trans (incCounter_T (by decide) s), rfl, rfl,
    compressEvent_valid _ _⟩
  · exact State.eq_of_chainPart_eq (chainPart_overflowPass bytes s) (by dsimp only) (overflowPass_buflen bytes s)
      (by simp [overflowPass]) (by simp [overflowPass]) (by simp [overflowPass]) (by simp [overflowPass])
  · rw [overflowPass_buf]
    exact Memory.bufWrite_wf (fillBuffer_wf hwf bytes) _ _
  · refine hblock.trans (takeVec_congr ?_)
    have hlt := s.buflen.isLt
    rw [List.take_append, List.take_append, List.take_take, length_pending, Nat.min_eq_left (by omega)]

/-! What `k` passes do. -/

theorem pending_passes (k : Nat) (r : Running) : (Running.pass^[k] r).pending = r.pending.drop (128 * k) := by
  induction k generalizing r with
  | zero => rfl
  | succ k ih =>
    rw [Function.iterate_succ_apply, ih, Running.pass, List.drop_drop]
    congr 1
    omega

theorem T_compressOn (block : Vector Byte 128) (s : State) : (compressOn block s).T = s.T := rfl

theorem T_lt (s : State) : s.T < 2 ^ 128 := by
  have h0 := s.t0.isLt
  have h1 := s.t1.isLt
  rw [State.T]
  omega

theorem T_passes (k : Nat) (r : Running) : (Running.pass^[k] r).chain.T = (r.chain.T + 128 * k) % 2 ^ 128 := by
  induction k generalizing r with
  | zero => exact (Nat.mod_eq_of_lt (T_lt r.chain)).symm
  | succ k ih =>
    rw [Function.iterate_succ_apply, ih, Running.pass, T_compressOn, incCounter_T (by decide)]
    omega

/-- Each pass records one event (R43). -/
theorem events_passes (k : Nat) (r : Running) :
    r.chain.events <+: (Running.pass^[k] r).chain.events ∧
      (Running.pass^[k] r).chain.events.length = r.chain.events.length + k := by
  induction k generalizing r with
  | zero => exact ⟨⟨[], List.append_nil _⟩, rfl⟩
  | succ k ih =>
    rw [Function.iterate_succ_apply]
    obtain ⟨hkept, hlen⟩ := ih r.pass
    have hpass : r.pass.chain.events =
        r.chain.events ++ [compressEvent (takeVec 128 r.pending) (incCounter 128 r.chain)] := rfl
    rw [hpass] at hkept hlen
    refine ⟨List.IsPrefix.trans ⟨_, rfl⟩ hkept, ?_⟩
    rw [hlen, List.length_append, List.length_singleton]
    omega

/-- Passes leave the flags and the tree marker alone (R39). -/
theorem flags_passes (k : Nat) (r : Running) :
    (Running.pass^[k] r).chain.f0 = r.chain.f0 ∧ (Running.pass^[k] r).chain.f1 = r.chain.f1 ∧
      (Running.pass^[k] r).chain.lastNode = r.chain.lastNode := by
  induction k generalizing r with
  | zero => exact ⟨rfl, rfl, rfl⟩
  | succ k ih => exact ih r.pass

/-- UPDATE makes as many passes as R37 counts. -/
theorem exec_update_passes {s : State} (hs : s.phase.live) (hwf : s.buf.wf = true) (bytes : List Byte) :
    ∃ t, exec (.update bytes) s = .next t ∧ Completes (.update bytes) [] s t ∧ t.buf.wf = true ∧
      t.running = Running.pass^[compressionsBefore (s.buflen.val + bytes.length)] (s.running.append bytes) := by
  rw [← length_pending_append]
  exact exec_update hs hwf bytes

/-- Settles O15: what as many passes do to the counter, the log, the flags and the pending input. -/
theorem updateResult : Obligations.UpdateResult := by
  intro s bytes hs hwf n k
  obtain ⟨t, ht, hc, htwf, hrun⟩ := exec_update_passes hs hwf bytes
  have hchain : t.chainPart = (Running.pass^[k] (s.running.append bytes)).chain := congrArg Running.chain hrun
  have hpending : t.pending = (s.pending ++ bytes).drop (128 * k) :=
    (congrArg Running.pending hrun).trans (pending_passes k _)
  obtain ⟨hkept, hevents⟩ := events_passes k (s.running.append bytes)
  obtain ⟨hf0, hf1, hnode⟩ := flags_passes k (s.running.append bytes)
  have hT := T_passes k (s.running.append bytes)
  rw [← hchain] at hkept hevents hf0 hf1 hnode hT
  refine ⟨t, ht, hc.phase, hevents, hkept, hT, ?_, hpending, fun hk => ?_, hf0, hf1, hnode, htwf, hc.input,
    hc.responses, hc.resets⟩
  · rw [← length_pending, hpending, List.length_drop, List.length_append, length_pending]
  · rw [hk] at hchain
    exact (State.fields_of_chainPart_eq hchain).1

/-! ### The results of FINAL -/

/-- Settles O16: the one event is that of the last block. -/
theorem finalOfOneBlock : Obligations.FinalOfOneBlock := by
  intro s olen hs hwf ho hle
  obtain ⟨t, ht, hc, hchain⟩ := exec_final hs hwf ho
  have hfinish : s.running.finish = s.running.last := if_neg (by rw [length_running_pending]; omega)
  have hcount : s.running.pending.length = s.buflen.val := length_running_pending s
  rw [hfinish] at hc hchain
  obtain ⟨-, -, -, -, -, hnode, hevents⟩ := State.fields_of_chainPart_eq hchain
  refine ⟨t, compressEvent (takeVec 128 s.pending) (markLast (incCounter s.running.pending.length s.chainPart)), ht,
    hc.phase, hevents, rfl, rfl, ?_, rfl, ?_, rfl, hc.responses, hnode,
    hc.input, hc.resets⟩
  · rw [hcount]
    exact incCounter_T (by omega) s
  · cases hs : s.lastNode <;> simp [compressEvent, State.chainPart, State.hashPart, hs]

/-- Settles O17: a pass, then the last block. -/
theorem finalOfTwoBlocks : Obligations.FinalOfTwoBlocks := by
  intro s olen hs hwf ho hlt
  obtain ⟨t, ht, hc, hchain⟩ := exec_final hs hwf ho
  have hfinish : s.running.finish = s.running.pass.last := if_pos (by rw [length_running_pending]; exact hlt)
  have hcount : s.running.pass.pending.length = s.buflen.val - 128 := by
    rw [Running.pass, List.length_drop, length_running_pending]
  rw [hfinish] at hc hchain
  obtain ⟨-, -, -, -, -, hnode, hevents⟩ := State.fields_of_chainPart_eq hchain
  refine ⟨t, compressEvent (takeVec 128 s.pending) (incCounter 128 s.chainPart),
    compressEvent (takeVec 128 (s.pending.drop 128))
      (markLast (incCounter s.running.pass.pending.length s.running.pass.chain)), ht, hc.phase, ?_, rfl, rfl,
    incCounter_T (by decide) s, rfl, rfl, rfl, rfl, rfl, ?_, rfl, ?_, rfl, hc.responses, hnode,
    hc.input, hc.resets⟩
  · exact hevents.trans (List.append_assoc s.events _ _)
  · have hT : s.running.pass.chain.T = (s.T + 128) % 2 ^ 128 := incCounter_T (by decide) s
    have hlast := incCounter_T (n := s.buflen.val - 128) (by omega) s.running.pass.chain
    rw [hT] at hlast
    rw [hcount]
    exact hlast.trans (by omega)
  · cases hs : s.lastNode <;>
      simp [compressEvent, Running.pass, compressOn, State.running, State.chainPart, State.hashPart, hs]

/-! ### Agreement -/

/-- States that agree run the same session, while it is open (R40). -/
theorem State.Agree.running_eq {s t : State} (h : s.Agree t) (hlive : s.phase.live) : s.running = t.running := by
  obtain ⟨hh, ht0, ht1, hf0, hf1, hnode⟩ := h.hash hlive
  have hpending : s.pending = t.pending := by
    rw [State.pending, State.pending, ← h.fill hlive]
    exact Memory.bufRead_congr fun a _ ha => h.live hlive a (by omega)
  have hchain : s.chainPart = t.chainPart := by
    simp only [State.chainPart, State.hashPart, hh, ht0, ht1, hf0, hf1, hnode, h.events]
  rw [State.running, State.running, hpending, hchain]

/-- A state tells nothing more of an open session than what it runs (R40). -/
theorem State.agree_of_running_eq {s t : State} (hphase : s.phase = t.phase) (hinput : s.input = t.input)
    (hresponses : s.responses = t.responses) (hevents : s.events = t.events) (hresets : s.resets = t.resets)
    (hrun : s.phase.live → s.running = t.running) : s.Agree t where
  phase := hphase
  input := hinput
  responses := hresponses
  events := hevents
  resets := hresets
  hash hlive := by
    have hchain : s.chainPart = t.chainPart := congrArg Running.chain (hrun hlive)
    obtain ⟨hh, ht0, ht1, hf0, hf1, hnode, -⟩ := State.fields_of_chainPart_eq hchain
    exact ⟨hh, ht0, ht1, hf0, hf1, hnode⟩
  fill hlive := by
    have hpending : s.pending = t.pending := congrArg Running.pending (hrun hlive)
    exact Fin.ext (by rw [← length_pending, hpending, length_pending])
  live hlive a ha := by
    have hpending : s.pending = t.pending := congrArg Running.pending (hrun hlive)
    have hread := getElem?_pending s ha
    rw [hpending, getElem?_pending t (by rw [← length_pending t, ← hpending, length_pending]; exact ha)] at hread
    exact (Option.some.inj hread).symm

/-- A command that completes in the same way from states that agree leads to states that agree, if these run the same
session or none. -/
theorem State.Agree.of_completes {i : Instr} {d : List Byte} {s s' t t' : State} (h : s.Agree s') (hc : Completes i d s t)
    (hc' : Completes i d s' t') (hevents : t.events = t'.events) (hrun : t.phase.live → t.running = t'.running) :
    t.Agree t' :=
  State.agree_of_running_eq (hc.phase.trans hc'.phase.symm) (by rw [hc.input, hc'.input, h.input])
    (by rw [hc.responses, hc'.responses, h.responses]) hevents (by rw [hc.resets, hc'.resets, h.resets]) hrun

theorem State.Agree.answered {s t : State} (h : s.Agree t) (r : Response) : (s.answered r).Agree (t.answered r) :=
  { h with responses := congrArg (· ++ [r]) h.responses }

theorem State.Agree.withInput {s t : State} (h : s.Agree t) (es : List HostEvent) :
    State.Agree { s with input := es } { t with input := es } := { h with input := rfl }

theorem events_of_running_eq {s t : State} (h : s.running = t.running) : s.events = t.events :=
  congrArg (fun r : Running => r.chain.events) h

theorem exec_agree (i : Instr) {s t : State} (hs : s.buf.wf = true) (ht : t.buf.wf = true) (h : s.Agree t) :
    AgreeOutcome (exec i s) (exec i t) := by
  cases he : commandError i s.phase with
  | some e =>
    rw [exec_of_commandError he, exec_of_commandError (h.phase ▸ he)]
    exact h.answered _
  | none =>
    have he' : commandError i t.phase = none := h.phase ▸ he
    cases i with
    | init dlen salt personal =>
      exact agreeOutcome_of_okPart_const he he' rfl rfl h.input h.responses h.resets
    | initKey dlen key salt personal =>
      exact agreeOutcome_of_okPart_const he he' rfl rfl h.input h.responses h.resets
    | update bytes =>
      have hlive := (phaseError_none_iff s.phase).mp he
      obtain ⟨u, hu, hc, -, hrun⟩ := exec_update hlive hs bytes
      obtain ⟨v, hv, hc', -, hrun'⟩ := exec_update (h.phase ▸ hlive) ht bytes
      have heq : u.running = v.running := by rw [hrun, hrun', h.running_eq hlive]
      rw [hu, hv]
      exact h.of_completes hc hc' (events_of_running_eq heq) fun _ => heq
    | final olen =>
      rw [commandError, Option.or_eq_none_iff] at he
      obtain ⟨hphase, hlen⟩ := he
      split_ifs at hlen with ho
      have hlive := (phaseError_none_iff s.phase).mp hphase
      have ho' := (lengthLegal_iff olen.toNat).mp (eq_true_of_ne_false ho)
      obtain ⟨u, hu, hc, hchain⟩ := exec_final hlive hs ho'
      obtain ⟨v, hv, hc', hchain'⟩ := exec_final (h.phase ▸ hlive) ht ho'
      rw [← h.running_eq hlive] at hc' hchain'
      rw [hu, hv]
      obtain ⟨-, -, -, -, -, -, hevents⟩ := State.fields_of_chainPart_eq (hchain.trans hchain'.symm)
      have hfinalized : u.phase = .finalized := hc.phase
      exact h.of_completes hc hc' hevents fun hopen => absurd (hfinalized ▸ hopen) (by decide)

/-- A reset leaves nothing of the state but its streams and its reset count (R220). -/
theorem resetEvent_congr {s t : State} (hresponses : s.responses = t.responses) (hresets : s.resets = t.resets)
    (rest : List HostEvent) : resetEvent rest s = resetEvent rest t := by
  simp only [resetEvent, hresponses, hresets]

/-- Settles O28: both steps find the same on the stream, and a reset forgets what the two states may differ in, an illegal
packet leaves it, and a command does not read it. -/
theorem deadStateNeverMatters : Obligations.DeadStateNeverMatters := by
  intro s t hs ht h
  rw [step, step, ← h.input]
  cases fetch s.input with
  | empty => rfl
  | incomplete => rfl
  | reset rest =>
    dsimp only
    rw [resetEvent_congr h.responses h.resets]
    exact State.agree_refl _
  | packet p rest =>
    dsimp only
    rw [runPacket, runPacket]
    cases decode p with
    | instr i => exact exec_agree i (s := { s with input := rest }) (t := { t with input := rest }) hs ht (h.withInput rest)
    | illegal why => exact (h.withInput rest).answered _

/-! ### The invariant -/

/-- The invariant of an open session, but for what it says of the phase (R36). -/
structure OpenInv (s : State) : Prop where
  bufWf : s.buf.wf = true
  bufInRange : s.buf.inRange = true
  nodeFlags : s.f1 = false ∧ s.lastNode = false
  noLastFlag : s.f0 = false
  counter : s.T = 128 * s.events.length % 2 ^ 128
  behind : s.events ≠ [] → 129 ≤ s.buflen.val

theorem OpenInv.inv {s : State} (h : OpenInv s) (hlive : s.phase.live) (hfresh : s.phase = .fresh → s.buflen.val = 0) :
    s.Inv where
  bufWf := h.bufWf
  bufInRange := h.bufInRange
  idleLog hidle := by rw [hidle] at hlive; exact absurd hlive (by decide)
  nodeFlags _ := h.nodeFlags
  noLastFlag _ := h.noLastFlag
  counter _ := h.counter
  behind _ := h.behind
  freshEmpty := hfresh

theorem State.Inv.openInv {s : State} (h : s.Inv) (hlive : s.phase.live) : OpenInv s :=
  ⟨h.bufWf, h.bufInRange, h.nodeFlags hlive, h.noLastFlag hlive, h.counter hlive, h.behind hlive⟩

theorem openInv_hashPart_iff (s : State) : OpenInv s.hashPart ↔ OpenInv s :=
  ⟨fun ⟨hwf, hrange, hnode, hlast, hcounter, hbehind⟩ => ⟨hwf, hrange, hnode, hlast, hcounter, hbehind⟩,
    fun ⟨hwf, hrange, hnode, hlast, hcounter, hbehind⟩ => ⟨hwf, hrange, hnode, hlast, hcounter, hbehind⟩⟩

theorem openInv_startWith (p : Vector Byte 64) (s : State) : OpenInv (startWith p s) :=
  ⟨rfl, rfl, ⟨rfl, rfl⟩, rfl, rfl, fun h => absurd rfl h⟩

/-- ABSORB keeps the invariant: it leaves more than 128 bytes pending whenever it compresses (R158). -/
theorem OpenInv.absorb {s : State} (h : OpenInv s) (bytes : List Byte) : OpenInv (absorb bytes s) := by
  have hrun := running_absorb bytes h.bufWf
  rw [Running.drain, length_pending_append] at hrun
  generalize hk : compressionsBefore (s.buflen.val + bytes.length) = k at hrun
  have hchain : (Machine.absorb bytes s).chainPart = (Running.pass^[k] (s.running.append bytes)).chain :=
    congrArg Running.chain hrun
  have hpending : (Machine.absorb bytes s).pending = (s.pending ++ bytes).drop (128 * k) :=
    (congrArg Running.pending hrun).trans (pending_passes k _)
  obtain ⟨-, hevents⟩ := events_passes k (s.running.append bytes)
  have hT := T_passes k (s.running.append bytes)
  rw [← hchain] at hevents hT
  have hevents : (Machine.absorb bytes s).events.length = s.events.length + k := hevents
  have hT : (Machine.absorb bytes s).T = (s.T + 128 * k) % 2 ^ 128 := hT
  refine ⟨absorb_buf_wf bytes s h.bufWf, absorb_buf_inRange bytes s h.bufInRange, ?_, ?_, ?_, fun hne => ?_⟩
  · rw [absorb_f1, absorb_lastNode]
    exact h.nodeFlags
  · rw [absorb_f0]
    exact h.noLastFlag
  · rw [hT, h.counter, hevents]
    omega
  · have hlen : (Machine.absorb bytes s).buflen.val = s.buflen.val + bytes.length - 128 * k := by
      rw [← length_pending, hpending, List.length_drop, List.length_append, length_pending]
    have hpos : 0 < s.events.length + k := hevents ▸ List.length_pos_iff.mpr hne
    have hbehind : 0 < s.events.length → 129 ≤ s.buflen.val := fun hpos => h.behind (List.length_pos_iff.mp hpos)
    rw [compressionsBefore] at hk
    omega

theorem State.Inv.answered {s : State} (h : s.Inv) (r : Response) : (s.answered r).Inv :=
  ⟨h.bufWf, h.bufInRange, h.idleLog, h.nodeFlags, h.noLastFlag, h.counter, h.behind, h.freshEmpty⟩

theorem State.Inv.withInput {s : State} (h : s.Inv) (es : List HostEvent) : State.Inv { s with input := es } :=
  ⟨h.bufWf, h.bufInRange, h.idleLog, h.nodeFlags, h.noLastFlag, h.counter, h.behind, h.freshEmpty⟩

/-- Of a state with no session open the invariant asks only the form of the buffer and, in Idle, the empty log. -/
theorem State.inv_of_closed {s : State} (hwf : s.buf.wf = true) (hrange : s.buf.inRange = true)
    (hclosed : ¬ s.phase.live) (hidle : s.phase = .idle → s.events = []) : s.Inv :=
  ⟨hwf, hrange, hidle, (absurd · hclosed), (absurd · hclosed), (absurd · hclosed), (absurd · hclosed),
    fun hfresh => absurd (.inl hfresh) hclosed⟩

/-- A reset event meets the invariant, whatever values it leaves (R220). -/
theorem resetEvent_inv (rest : List HostEvent) (s : State) : (resetEvent rest s).Inv :=
  State.inv_of_closed (by rw [resetEvent_buf]; exact resetBuf_wf _) (by rw [resetEvent_buf]; exact resetBuf_inRange _)
    (by rw [resetEvent_phase]; decide) fun _ => resetEvent_events rest s

theorem exec_inv {i : Instr} {s t : State} (h : s.Inv) (hexec : exec i s = .next t) : t.Inv := by
  cases he : commandError i s.phase with
  | some e =>
    cases Host.Outcome.next.inj (hexec.symm.trans (exec_of_commandError he))
    exact h.answered _
  | none =>
    obtain ⟨u, hu, hc, hpart⟩ := exec_of_noError he
    cases Host.Outcome.next.inj (hexec.symm.trans hu)
    cases i with
    | init dlen salt personal =>
      have hopen : OpenInv t := (openInv_hashPart_iff t).mp (hpart ▸ openInv_startWith _ _)
      exact hopen.inv (.inl hc.phase) fun _ => congrArg (fun u => u.buflen.val) hpart
    | initKey dlen key salt personal =>
      have hopen : OpenInv t := (openInv_hashPart_iff t).mp (hpart ▸ (openInv_startWith _ _).absorb _)
      exact hopen.inv (.inr hc.phase) fun hfresh => nomatch hc.phase.symm.trans hfresh
    | update bytes =>
      have hs := (openInv_hashPart_iff s).mpr (h.openInv ((phaseError_none_iff s.phase).mp he))
      have hopen : OpenInv t := (openInv_hashPart_iff t).mp (hpart ▸ hs.absorb bytes)
      exact hopen.inv (.inr hc.phase) fun hfresh => nomatch hc.phase.symm.trans hfresh
    | final olen =>
      have hfinalized : t.phase = .finalized := hc.phase
      exact State.inv_of_closed
        ((congrArg (fun u => u.buf.wf) hpart).trans (compressHalves_buf_wf (s := s.hashPart) h.bufWf))
        ((congrArg (fun u => u.buf.inRange) hpart).trans (compressHalves_buf_inRange (s := s.hashPart) h.bufInRange))
        (by rw [hfinalized]; decide) fun hidle => nomatch hfinalized.symm.trans hidle

/-- Settles O44: a reset meets the invariant, an illegal packet leaves it, and every command keeps it. -/
theorem stepKeepsInvariant : Obligations.StepKeepsInvariant := by
  intro s t h hstep
  rw [step] at hstep
  cases hfetch : fetch s.input with
  | empty => rw [hfetch] at hstep; cases hstep
  | incomplete => rw [hfetch] at hstep; cases hstep
  | reset rest =>
    rw [hfetch] at hstep
    cases Host.Outcome.next.inj hstep
    exact resetEvent_inv rest s
  | packet p rest =>
    rw [hfetch] at hstep
    dsimp only at hstep
    rw [runPacket] at hstep
    cases hd : decode p with
    | instr i =>
      rw [hd] at hstep
      exact exec_inv (h.withInput rest) hstep
    | illegal why =>
      rw [hd] at hstep
      cases raise_eq_next.mp hstep
      exact (h.withInput rest).answered _

/-- Settles O43: the buffer is empty and no session is open. -/
theorem invariantAtReset : Obligations.InvariantAtReset :=
  State.inv_of_closed rfl rfl (by decide) fun _ => rfl

end Sys2Proof.Machine
end

section
/-! Whole sessions (spec/43_state_machine.md R159, R160, R162; spec/10_state.md R37; spec/70_reset_and_hazards.md R222,
R228): what a session leaves is a function of its whole input, however that is cut into UPDATEs; and the one-shot hashes of
the host (spec/44_host_sequences.md R180, R181). -/

namespace Sys2Proof.Machine

/-! ### UPDATEs one after the other -/

/-- Input that comes after a drain may as well come before it (R152). -/
theorem drain_append_drain (r : Running) (bs : List Byte) : (r.drain.append bs).drain = (r.append bs).drain := by
  induction hn : r.pending.length using Nat.strong_induction_on generalizing r with
  | _ n ih =>
    by_cases h : r.pending.length ≤ 256
    · rw [drain_of_le h]
    · have hlt : 256 < (r.append bs).pending.length := by
        rw [Running.append, List.length_append]
        omega
      have hpass : r.pass.pending.length < n := by
        rw [Running.pass, List.length_drop]
        omega
      rw [drain_of_lt (Nat.lt_of_not_le h), ih _ hpass r.pass rfl, append_pass (by omega), drain_of_lt hlt]

theorem drain_running (s : State) : s.running.drain = s.running :=
  drain_of_le (by rw [length_running_pending]; exact Nat.le_of_lt_succ s.buflen.isLt)

/-- What the UPDATEs of some chunks lead to from an open session (R155). -/
structure Absorbed (chunks : List (List Byte)) (s t : State) : Prop where
  live : t.phase.live
  phase : chunks ≠ [] ∨ s.phase = .absorbing → t.phase = .absorbing
  bufWf : t.buf.wf = true
  running : t.running = (s.running.append chunks.flatten).drain
  responses : t.responses = s.responses ++ List.replicate chunks.length (.ok [])
  input : t.input = s.input
  resets : t.resets = s.resets

/-- The UPDATEs of an open session absorb their chunks as one input (R160). -/
theorem runCommands_updates (chunks : List (List Byte)) {s : State} (hs : s.phase.live) (hwf : s.buf.wf = true) :
    ∃ t, runCommands (chunks.map Instr.update) s = .next t ∧ Absorbed chunks s t := by
  induction chunks generalizing s with
  | nil =>
    have hrun : s.running = (s.running.append []).drain := by
      rw [Running.append, List.append_nil]
      exact (drain_running s).symm
    exact ⟨s, rfl, hs, fun h => h.resolve_left (· rfl), hwf, hrun, (List.append_nil _).symm, rfl, rfl⟩
  | cons bs chunks ih =>
    obtain ⟨u, hu, hc, huwf, hrun⟩ := exec_update hs hwf bs
    have habsorbing : u.phase = .absorbing := hc.phase
    obtain ⟨t, ht, ha⟩ := ih (.inr habsorbing) huwf
    refine ⟨t, (runCommands_cons hu _).trans ht, ha.live, fun _ => ha.phase (.inr habsorbing), ha.bufWf, ?_, ?_,
      ha.input.trans hc.input, ha.resets.trans hc.resets⟩
    · rw [ha.running, hrun, drain_append_drain, append_append, List.flatten_cons]
    · rw [ha.responses, hc.responses, List.append_assoc, List.length_cons, List.replicate_succ]
      rfl

theorem lastResponse_of_completes {i : Instr} {d : List Byte} {s t : State} (hc : Completes i d s t) :
    lastResponse t = some (.ok d) := by
  rw [lastResponse, hc.responses, List.getLast?_concat]

/-- Settles O47: both ways lead to the same running session, and FINAL reads nothing else. -/
theorem chunkingDoesNotMatter : Obligations.ChunkingDoesNotMatter := by
  intro s chunks olen hs hwf ho
  obtain ⟨u, hu, hau⟩ := runCommands_updates chunks hs hwf
  obtain ⟨v, hv, hav⟩ := runCommands_updates [chunks.flatten] hs hwf
  have hrun : u.running = v.running := by rw [hau.running, hav.running, List.flatten_singleton]
  refine ⟨fun h => ⟨u, v, hu, hv, ?_⟩, ?_⟩
  · exact State.agree_of_running_eq ((hau.phase h).trans (hav.phase (.inl (List.cons_ne_nil _ _))).symm)
      (hau.input.trans hav.input.symm) rfl (events_of_running_eq hrun) (hau.resets.trans hav.resets.symm) fun _ => hrun
  · obtain ⟨t, ht, hc, hchain⟩ := exec_final hau.live hau.bufWf ho
    obtain ⟨t', ht', hc', hchain'⟩ := exec_final hav.live hav.bufWf ho
    rw [← hrun] at hc' hchain'
    obtain ⟨-, -, -, -, -, -, hevents⟩ := State.fields_of_chainPart_eq (hchain.trans hchain'.symm)
    exact ⟨t, t', _, (runCommands_append hu _).trans (runCommands_cons ht []),
      (runCommands_append hv _).trans (runCommands_cons ht' []), hevents, lastResponse_of_completes hc,
      lastResponse_of_completes hc'⟩

/-! ### A session from its start -/

/-- The commands that open a session, with the chaining value they seed and the input they begin it with (R153, R154). -/
inductive Opens : Instr → Vector Word 8 → List Byte → Prop
  | init {dlen : Byte} (hd : legalLength dlen) (salt personal : Option Bytes16) :
    Opens (.init dlen salt personal) (seed dlen.toNat 0 salt personal) []
  | initKey {dlen : Byte} {key : List Byte} (hd : legalLength dlen) (hk : legalKey key) (salt personal : Option Bytes16) :
    Opens (.initKey dlen key salt personal) (seed dlen.toNat key.length salt personal) (keyBlock key)

/-- A session seeded with `h` that has absorbed `x` and compressed nothing. -/
def Running.opened (h : Vector Word 8) (x : List Byte) : Running := ⟨{ State.reset with h := h }, x⟩

/-- A command that opens a session does so from every state (R153, R154). -/
theorem exec_opens {start : Instr} {h : Vector Word 8} {x : List Byte} (ho : Opens start h x) (s : State) :
    ∃ t, exec start s = .next t ∧ Completes start [] s t ∧ t.phase.live ∧ t.buf.wf = true ∧
      t.running = .opened h x := by
  cases ho with
  | init hd salt personal =>
    obtain ⟨t, ht, hc, hwf, hrun⟩ := exec_init hd salt personal s
    exact ⟨t, ht, hc, .inl hc.phase, hwf, hrun⟩
  | initKey hd hk salt personal =>
    obtain ⟨t, ht, hc, hwf, hrun⟩ := exec_initKey hd hk salt personal s
    exact ⟨t, ht, hc, .inr hc.phase, hwf, hrun⟩

/-- A session before FINAL: it has absorbed its whole input at once (R160). -/
theorem runCommands_open {start : Instr} {h : Vector Word 8} {x : List Byte} (ho : Opens start h x)
    (chunks : List (List Byte)) (s : State) :
    ∃ t, runCommands (start :: chunks.map Instr.update) s = .next t ∧ t.phase.live ∧ t.buf.wf = true ∧
      t.responses = s.responses ++ List.replicate (chunks.length + 1) (.ok []) ∧
      t.running = (Running.opened h (x ++ chunks.flatten)).drain := by
  obtain ⟨u, hu, hc, hlive, hwf, hrun⟩ := exec_opens ho s
  obtain ⟨t, ht, ha⟩ := runCommands_updates chunks hlive hwf
  refine ⟨t, (runCommands_cons hu _).trans ht, ha.live, ha.bufWf, ?_, by rw [ha.running, hrun]; rfl⟩
  rw [ha.responses, hc.responses, List.append_assoc, List.replicate_succ]
  rfl

/-- A whole session: what FINAL makes of its whole input (R156, R160). -/
theorem runCommands_session {start : Instr} {h : Vector Word 8} {x : List Byte} (ho : Opens start h x) {olen : Byte}
    (hl : legalLength olen) (chunks : List (List Byte)) (s : State) :
    ∃ t, runCommands (start :: (chunks.map Instr.update ++ [.final olen])) s = .next t ∧ t.phase = .finalized ∧
      t.chainPart = (Running.opened h (x ++ chunks.flatten)).drain.finish ∧
      t.responses = s.responses ++ (List.replicate (chunks.length + 1) (.ok []) ++
        [.ok ((serialize (Running.opened h (x ++ chunks.flatten)).drain.finish.h).take olen.toNat)]) := by
  obtain ⟨u, hu, hlive, hwf, hresponses, hrun⟩ := runCommands_open ho chunks s
  obtain ⟨t, ht, hc, hchain⟩ := exec_final hlive hwf hl
  rw [hrun] at hc hchain
  exact ⟨t, (runCommands_append hu [.final olen]).trans (runCommands_cons ht []), hc.phase, hchain,
    by rw [hc.responses, hresponses, List.append_assoc]⟩

/-! ### The events of a session -/

/-- The counter words after `n` bytes (R21). -/
structure Counts (n : Nat) (s : State) : Prop where
  t0 : s.t0 = BitVec.ofNat 64 n
  t1 : s.t1 = BitVec.ofNat 64 (n / 2 ^ 64)

theorem Counts.incCounter {n : Nat} {s : State} (h : Counts n s) {k : Nat} (hk : k < 2 ^ 64) :
    Counts (n + k) (incCounter k s) := by
  have ht0 : s.t0.toNat = n % 2 ^ 64 := by rw [h.t0, BitVec.toNat_ofNat]
  refine ⟨?_, ?_⟩
  · rw [incCounter_t0, h.t0, BitVec.ofNat_add]
  · by_cases hwrap : 2 ^ 64 ≤ s.t0.toNat + k
    · rw [incCounter_t1_of_le hk hwrap, h.t1, show (n + k) / 2 ^ 64 = n / 2 ^ 64 + 1 by omega, BitVec.ofNat_add]
      rfl
    · rw [incCounter_t1_of_lt (Nat.lt_of_not_le hwrap), h.t1, show (n + k) / 2 ^ 64 = n / 2 ^ 64 by omega]

/-- A session on the total input `x` after `j` compressions, none of them its last. -/
structure Running.At (x : List Byte) (j : Nat) (r : Running) : Prop where
  counts : Counts (128 * j) r.chain
  f0 : r.chain.f0 = false
  f1 : r.chain.f1 = false
  lastNode : r.chain.lastNode = false
  pending : r.pending = x.drop (128 * j)

theorem at_opened (h : Vector Word 8) (x : List Byte) : (Running.opened h x).At x 0 :=
  ⟨⟨rfl, rfl⟩, rfl, rfl, rfl, rfl⟩

theorem at_pass {x : List Byte} {j : Nat} {r : Running} (h : r.At x j) : r.pass.At x (j + 1) := by
  obtain ⟨ht0, ht1⟩ := h.counts.incCounter (k := 128) (by decide)
  exact ⟨⟨ht0, ht1⟩, h.f0, h.f1, h.lastNode, by rw [Running.pass, h.pending, List.drop_drop]; rfl⟩

/-- A compression that is not the last records the event R159 gives it. -/
theorem compressEvent_pass {x : List Byte} {j : Nat} {r : Running} (h : r.At x j)
    (hj : j + 1 ≠ compressionsTotal x.length) :
    compressEvent (takeVec 128 r.pending) (incCounter 128 r.chain) = sessionEvent x j r.chain.h := by
  obtain ⟨ht0, ht1⟩ := h.counts.incCounter (k := 128) (by decide)
  simp only [compressEvent, sessionEvent, decide_eq_false hj, incCounter_h, incCounter_f0, incCounter_f1, ht0, ht1, h.f0,
    h.f1, h.pending]
  rfl

theorem chain_pass_at {x : List Byte} {j : Nat} {r : Running} (h : r.At x j) (hj : j + 1 ≠ compressionsTotal x.length) :
    r.pass.chain.events = r.chain.events ++ [sessionEvent x j r.chain.h] ∧
      r.pass.chain.h = (sessionEvent x j r.chain.h).hOut := by
  rw [← compressEvent_pass h hj]
  exact ⟨rfl, rfl⟩

/-- The last compression records the event R159 gives it. -/
theorem compressEvent_last {x : List Byte} {j : Nat} {r : Running} (h : r.At x j)
    (hj : j + 1 = compressionsTotal x.length) (hle : 128 * j ≤ x.length) (hlen : r.pending.length < 2 ^ 64) :
    compressEvent (takeVec 128 r.pending) (markLast (incCounter r.pending.length r.chain)) =
      sessionEvent x j r.chain.h := by
  obtain ⟨ht0, ht1⟩ := h.counts.incCounter hlen
  have hcount : 128 * j + r.pending.length = x.length := by
    rw [h.pending, List.length_drop]
    omega
  rw [hcount] at ht0 ht1
  simp only [compressEvent, sessionEvent, decide_eq_true hj, markLast_h, markLast_t0, markLast_t1, markLast_f0, markLast_f1,
    incCounter_h, incCounter_f1, incCounter_lastNode, ht0, ht1, h.f1, h.lastNode]
  rw [h.pending]
  rfl

/-- The events of `k` passes (R159). -/
theorem events_passes_at {x : List Byte} {k j : Nat} {r : Running} (h : r.At x j)
    (hk : j + k < compressionsTotal x.length) :
    (Running.pass^[k] r).chain.events = r.chain.events ++ sessionEventsFrom x k j r.chain.h := by
  induction k generalizing j r with
  | zero => exact (List.append_nil _).symm
  | succ k ih =>
    obtain ⟨hevents, hh⟩ := chain_pass_at h (by omega)
    rw [Function.iterate_succ_apply, ih (at_pass h) (by omega), hevents, hh, List.append_assoc, sessionEventsFrom]
    rfl

/-- The events of `k` passes and the last block (R159). -/
theorem events_last_passes_at {x : List Byte} {k j : Nat} {r : Running} (h : r.At x j)
    (hk : j + k + 1 = compressionsTotal x.length) (hle : 128 * (j + k) ≤ x.length)
    (hlt : x.length ≤ 128 * (j + k) + 128) :
    (Running.pass^[k] r).last.events = r.chain.events ++ sessionEventsFrom x (k + 1) j r.chain.h := by
  induction k generalizing j r with
  | zero =>
    have hlen : r.pending.length < 2 ^ 64 := by
      rw [h.pending, List.length_drop]
      omega
    rw [sessionEventsFrom, ← compressEvent_last h hk hle hlen]
    rfl
  | succ k ih =>
    obtain ⟨hevents, hh⟩ := chain_pass_at h (by omega)
    rw [Function.iterate_succ_apply, ih (at_pass h) (by omega) (by omega) (by omega), hevents, hh, List.append_assoc,
      sessionEventsFrom]
    rfl

/-- A whole session makes all compressions but one as passes, and the last in FINAL (R37). -/
theorem finish_drain_opened (h : Vector Word 8) (x : List Byte) :
    (Running.opened h x).drain.finish = (Running.pass^[compressionsTotal x.length - 1] (.opened h x)).last := by
  have hlen : (Running.opened h x).drain.pending.length = x.length - 128 * compressionsBefore x.length := by
    rw [Running.drain, pending_passes, List.length_drop]
    rfl
  have hdrain : (Running.opened h x).drain = Running.pass^[compressionsBefore x.length] (.opened h x) := rfl
  rw [Running.finish, hlen]
  split_ifs with hlt
  · have htotal : compressionsTotal x.length - 1 = compressionsBefore x.length + 1 := by
      rw [compressionsTotal, compressionsBefore] at *
      omega
    rw [htotal, Function.iterate_succ_apply', hdrain]
  · have htotal : compressionsTotal x.length - 1 = compressionsBefore x.length := by
      rw [compressionsTotal, compressionsBefore] at *
      omega
    rw [htotal, hdrain]

/-- The event log of a session is that of the one-shot function (R159). -/
theorem events_finish_drain_opened (h : Vector Word 8) (x : List Byte) :
    (Running.opened h x).drain.finish.events = sessionEvents h x := by
  obtain ⟨k, hk⟩ : ∃ k, compressionsTotal x.length = k + 1 :=
    Nat.exists_eq_succ_of_ne_zero (by rw [compressionsTotal]; omega)
  have hbounds : 128 * k ≤ x.length ∧ x.length ≤ 128 * k + 128 := by
    rw [compressionsTotal] at hk
    omega
  rw [finish_drain_opened, hk, Nat.add_sub_cancel, sessionEvents, hk]
  exact events_last_passes_at (at_opened h x) (by omega) (by omega) (by omega)

/-- The last event of FINAL holds what FINAL serializes (R43, R156). -/
theorem getLast?_events_last (r : Running) : r.last.events.getLast?.map CompressEvent.hOut = some r.last.h := by
  rw [Running.last, compressOn]
  dsimp only
  rw [List.getLast?_concat]
  rfl

/-- The chaining value FINAL serializes is the result of the one-shot function (R159). -/
theorem h_finish_drain_opened (h : Vector Word 8) (x : List Byte) :
    (Running.opened h x).drain.finish.h = sessionResult h x := by
  rw [sessionResult, ← events_finish_drain_opened, finish_drain_opened, getLast?_events_last]
  rfl

/-- A whole session gives the events and the digest of its whole input (R159). -/
theorem runCommands_session_oneShot {start : Instr} {h : Vector Word 8} {x : List Byte} (ho : Opens start h x)
    {olen : Byte} (hl : legalLength olen) (chunks : List (List Byte)) (s : State) :
    ∃ t, runCommands (start :: (chunks.map Instr.update ++ [.final olen])) s = .next t ∧ t.phase = .finalized ∧
      t.events = sessionEvents h (x ++ chunks.flatten) ∧
      t.responses = s.responses ++ (List.replicate (chunks.length + 1) (.ok []) ++
        [.ok ((serialize (sessionResult h (x ++ chunks.flatten))).take olen.toNat)]) := by
  obtain ⟨t, ht, hphase, hchain, hresponses⟩ := runCommands_session ho hl chunks s
  obtain ⟨-, -, -, -, -, -, hevents⟩ := State.fields_of_chainPart_eq hchain
  rw [h_finish_drain_opened] at hresponses
  exact ⟨t, ht, hphase, hevents.trans (events_finish_drain_opened _ _), hresponses⟩

/-- Settles O45: INIT begins the session with no input. -/
theorem sessionEqualsOneShot : Obligations.SessionEqualsOneShot := by
  intro s dlen olen salt personal chunks hd hl
  obtain ⟨t, ht, -, hevents, hresponses⟩ := runCommands_session_oneShot (.init hd salt personal) hl chunks s
  exact ⟨t, ht, hevents, hresponses⟩

/-- Settles O46: INIT_KEY begins the session with the key block. -/
theorem keyedSessionEqualsOneShot : Obligations.KeyedSessionEqualsOneShot := by
  intro s dlen olen key salt personal chunks hd hl hk
  obtain ⟨t, ht, -, hevents, hresponses⟩ := runCommands_session_oneShot (.initKey hd hk salt personal) hl chunks s
  exact ⟨t, ht, hevents, hresponses⟩

/-- An INIT or INIT_KEY with legal operands opens a session. -/
theorem exists_opens {start : Instr} {dlen : Byte} {key : List Byte} {salt personal : Option Bytes16}
    (hd : legalLength dlen)
    (hstart : start = .init dlen salt personal ∨ legalKey key ∧ start = .initKey dlen key salt personal) :
    ∃ h x, Opens start h x := by
  obtain rfl | ⟨hk, rfl⟩ := hstart
  · exact ⟨_, _, .init hd salt personal⟩
  · exact ⟨_, _, .initKey hd hk salt personal⟩

/-- Settles O51: the responses of a session are all OK. -/
theorem orderlyHostGetsNoError : Obligations.OrderlyHostGetsNoError := by
  intro s start dlen olen key salt personal chunks hclean hd hl hstart
  obtain ⟨h, x, ho⟩ := exists_opens hd hstart
  obtain ⟨t, ht, hphase, -, hresponses⟩ := runCommands_session_oneShot ho hl chunks s
  refine ⟨t, ht, fun r hr => ?_, hphase⟩
  rw [hresponses, List.mem_append, List.mem_append, List.mem_singleton] at hr
  obtain hr | hr | rfl := hr
  · exact hclean r hr
  · exact ⟨[], List.eq_of_mem_replicate hr⟩
  · exact ⟨_, rfl⟩

/-! ### Counts and boundaries -/

@[simp] theorem length_sessionEventsFrom (x : List Byte) (n j : Nat) (h : Vector Word 8) :
    (sessionEventsFrom x n j h).length = n := by
  induction n generalizing j h with
  | zero => rfl
  | succ n ih => rw [sessionEventsFrom, List.length_cons, ih]

/-- The fill level, the counter and the number of compressions of a session before FINAL (R37). -/
theorem counts_of_running_drain {h : Vector Word 8} {x : List Byte} {t : State}
    (hrun : t.running = (Running.opened h x).drain) :
    t.events.length = compressionsBefore x.length ∧ t.T = 128 * compressionsBefore x.length % 2 ^ 128 ∧
      t.buflen.val = x.length - 128 * compressionsBefore x.length := by
  have hchain : t.chainPart = (Running.pass^[compressionsBefore x.length] (.opened h x)).chain :=
    congrArg Running.chain hrun
  have hpending : t.pending = x.drop (128 * compressionsBefore x.length) :=
    (congrArg Running.pending hrun).trans (pending_passes _ _)
  have hevents := (events_passes (compressionsBefore x.length) (.opened h x)).2
  have hT := T_passes (compressionsBefore x.length) (.opened h x)
  have hzero : (Running.opened h x).chain.T = 0 := rfl
  have hnone : (Running.opened h x).chain.events.length = 0 := rfl
  rw [← hchain, hnone, Nat.zero_add] at hevents
  rw [← hchain, hzero, Nat.zero_add] at hT
  exact ⟨hevents, hT, by rw [← length_pending, hpending, List.length_drop]⟩

/-- Settles O48: the passes of the drain before FINAL, and the events of the one-shot function after it. -/
theorem closedFormOfSession : Obligations.ClosedFormOfSession := by
  intro s start dlen olen key salt personal chunks n hd hl hn hstart
  obtain ⟨h, x, ho, hlen⟩ : ∃ h x, Opens start h x ∧ (x ++ chunks.flatten).length = n := by
    obtain ⟨rfl, rfl⟩ | ⟨hk, rfl, rfl⟩ := hstart
    · exact ⟨_, _, .init hd salt personal, rfl⟩
    · exact ⟨_, _, .initKey hd hk salt personal,
        by rw [List.length_append, length_keyBlock (hk.2.trans (by decide))]⟩
  obtain ⟨t, ht, -, -, -, hrun⟩ := runCommands_open ho chunks s
  obtain ⟨u, hu, -, hevents', -⟩ := runCommands_session_oneShot ho hl chunks s
  obtain ⟨hevents, hT, hfill⟩ := counts_of_running_drain hrun
  rw [hlen] at hevents hT hfill
  refine ⟨⟨t, ht, hevents, ?_, hfill⟩, u, hu, by rw [hevents', sessionEvents, length_sessionEventsFrom, hlen]⟩
  rw [hT, Nat.mod_eq_of_lt]
  rw [compressionsBefore]
  omega

/-- What R162 observes of an event: its block, its counter and its last-block flag. -/
theorem sessionEvent_observed (x : List Byte) (j : Nat) (h : Vector Word 8) (hx : x.length < 2 ^ 64)
    (hj : 128 * (j + 1) < 2 ^ 64) :
    ((sessionEvent x j h).block, (sessionEvent x j h).T, (sessionEvent x j h).f0) =
      (takeVec 128 (x.drop (128 * j)),
        if j + 1 = compressionsTotal x.length then x.length else 128 * (j + 1),
        decide (j + 1 = compressionsTotal x.length)) := by
  by_cases hlast : j + 1 = compressionsTotal x.length
  · simp [sessionEvent, CompressEvent.T, hlast]
    omega
  · simp [sessionEvent, CompressEvent.T, hlast]
    omega

/-- Settles O49: the events of the session, counted and taken one by one. -/
theorem blockBoundary : Obligations.BlockBoundary := by
  intro s dlen olen salt personal x hd hl
  have ho := Opens.init hd salt personal
  obtain ⟨t, ht, -, -, -, hrun⟩ := runCommands_open ho [x] s
  obtain ⟨t', ht', -, hevents', -⟩ := runCommands_session_oneShot ho hl [x] s
  rw [List.flatten_singleton, List.nil_append] at hrun hevents'
  obtain ⟨hcount, -, -⟩ := counts_of_running_drain hrun
  refine ⟨t, t', ht, ht', ?_, fun hx => ?_, fun hx => ?_, fun hx => ?_⟩
  · rw [← List.length_eq_zero_iff, hcount, compressionsBefore]
    omega
  · have htotal : compressionsTotal x.length = 1 := by rw [hx]; rfl
    rw [hevents', sessionEvents, htotal, sessionEventsFrom, List.map_cons, sessionEvent_observed _ _ _ (by omega) (by omega),
      htotal, hx]
    rfl
  · have htotal : compressionsTotal x.length = 2 := by rw [hx]; rfl
    rw [hevents', sessionEvents, htotal, sessionEventsFrom, sessionEventsFrom, List.map_cons, List.map_cons,
      sessionEvent_observed _ _ _ (by omega) (by omega), sessionEvent_observed _ _ _ (by omega) (by omega), htotal, hx]
    rfl
  · have htotal : compressionsTotal x.length = 3 := by rw [hx]; rfl
    have hbefore : compressionsBefore x.length = 1 := by rw [hx]; rfl
    have hevents : t.events = (Running.pass^[compressionsBefore x.length]
        (.opened (seed dlen.toNat 0 salt personal) x)).chain.events := congrArg (fun r : Running => r.chain.events) hrun
    rw [hevents, hbefore, events_passes_at (at_opened _ x) (by omega), sessionEventsFrom]
    refine (congrArg (· :: []) (sessionEvent_observed x 0 _ (by omega) (by omega))).trans ?_
    rw [htotal]
    rfl

/-- Settles O52: with no more than 256 bytes in all nothing is compressed, and the key block is the first of them. -/
theorem keyStaysInBlockZero : Obligations.KeyStaysInBlockZero := by
  intro s dlen key salt personal chunks hd hk hle
  have hblock := length_keyBlock (hk.2.trans (by decide))
  obtain ⟨t, ht, -, -, -, hrun⟩ := runCommands_open (.initKey hd hk salt personal) chunks s
  have hlen : (keyBlock key ++ chunks.flatten).length ≤ 256 := by
    rw [List.length_append]
    omega
  rw [drain_of_le (r := .opened _ _) hlen] at hrun
  have hpending : t.pending = keyBlock key ++ chunks.flatten := congrArg Running.pending hrun
  refine ⟨t, ht, fun a ha => ?_⟩
  have hfill : a < t.buflen.val := by
    rw [← length_pending, hpending, List.length_append]
    omega
  have hread := getElem?_pending t hfill
  rw [hpending, List.getElem?_append_left (by omega)] at hread
  rw [← keyBlock, List.getD_eq_getElem?_getD, hread]
  rfl

/-! ### The host's one-shot hashes -/

/-- A host that stops at an error stops at the first command that answers one (R180). -/
theorem runUntilError_of_commandError {i : Instr} {s : State} {e : CmdError} (h : commandError i s.phase = some e)
    (is : List Instr) : runUntilError (i :: is) s = .next (s.answered (.error e)) := by
  have hlast : lastResponse (s.answered (.error e)) = some (.error e) := List.getLast?_concat
  rw [runUntilError, exec_of_commandError h]
  simp only [hlast]

/-- Settles O53: the first command carries both lengths and the key, and its error ends the run. -/
theorem oneShotStopsAtBadLengths : Obligations.OneShotStopsAtBadLengths := by
  intro s outlen key input
  refine ⟨fun hd => ⟨?_, ?_⟩, fun hd hk => ?_, fun hd hk => ?_, fun hk => if_neg (by omega)⟩
  · exact runUntilError_of_commandError (commandError_init_badLength hd _ _ _) _
  · exact runUntilError_of_commandError (commandError_initKey_badLength hd _ _ _ _) _
  · exact runUntilError_of_commandError (commandError_initKey_longKey hd hk _ _ _) _
  · exact runUntilError_of_commandError (commandError_initKey_noKey hd (by rw [hk]; rfl) _ _ _) _

/-- A run of commands only adds responses (R57). -/
theorem responses_of_runCommands {is : List Instr} {s t : State} (h : runCommands is s = .next t) :
    s.responses <+: t.responses := by
  induction is generalizing s with
  | nil => rw [Host.Outcome.next.inj h]
  | cons i is ih =>
    obtain ⟨u, r, hu, hr, -, -⟩ := everyCommandIsAnsweredOnce i s
    rw [runCommands_cons hu] at h
    exact List.IsPrefix.trans ⟨[r], hr.symm⟩ (ih h)

/-- A host that stops at an error sends everything when all new responses are OK (R180). -/
theorem runUntilError_of_ok {is : List Instr} {s t : State} {rs : List Response} (h : runCommands is s = .next t)
    (hrs : t.responses = s.responses ++ rs) (hok : ∀ r ∈ rs, ∃ d, r = .ok d) : runUntilError is s = .next t := by
  induction is generalizing s rs with
  | nil => exact h
  | cons i is ih =>
    obtain ⟨u, r, hu, hr, -, -⟩ := everyCommandIsAnsweredOnce i s
    rw [runCommands_cons hu] at h
    obtain ⟨rs', hrs'⟩ := responses_of_runCommands h
    obtain rfl : rs = r :: rs' := by
      rw [← hrs', hr, List.append_assoc] at hrs
      exact (List.append_cancel_left hrs).symm
    obtain ⟨d, rfl⟩ := hok r List.mem_cons_self
    have hlast : lastResponse u = some (.ok d) := by rw [lastResponse, hr, List.getLast?_concat]
    rw [runUntilError, hu]
    simp only [hlast]
    exact ih h hrs'.symm fun r hr => hok r (List.mem_cons_of_mem _ hr)

theorem flatten_hostChunks (n : Nat) (input : List Byte) : (hostChunks n input).flatten = input := by
  induction n generalizing input with
  | zero => exact List.flatten_singleton
  | succ n ih =>
    rw [hostChunks]
    split_ifs
    · exact List.flatten_singleton
    · rw [List.flatten_cons, ih, List.take_append_drop]

/-- A one-shot hash whose first command opens a session ends in the digest of its input (R180, R181). -/
theorem runUntilError_oneShot {start : Instr} {h : Vector Word 8} {x : List Byte} (ho : Opens start h x) {olen : Byte}
    (hl : legalLength olen) (input : List Byte) (s : State) :
    ∃ t, runUntilError (start :: ((hostChunks input.length input).map Instr.update ++ [.final olen])) s = .next t ∧
      lastResponse t = some (.ok ((serialize (sessionResult h (x ++ input))).take olen.toNat)) := by
  obtain ⟨t, ht, -, -, hresponses⟩ := runCommands_session_oneShot ho hl (hostChunks input.length input) s
  rw [flatten_hostChunks] at hresponses
  refine ⟨t, runUntilError_of_ok ht hresponses fun r hr => ?_, ?_⟩
  · rw [List.mem_append, List.mem_singleton] at hr
    obtain hr | rfl := hr
    · exact ⟨[], List.eq_of_mem_replicate hr⟩
    · exact ⟨_, rfl⟩
  · rw [lastResponse, hresponses, ← List.append_assoc, List.getLast?_concat]

/-- Settles O54: HASH opens an unkeyed session and KEYED_HASH a keyed one. -/
theorem oneShotAnswersTheDigest : Obligations.OneShotAnswersTheDigest := fun s _ _ input hd =>
  ⟨runUntilError_oneShot (.init hd none none) hd input s,
    fun hk => runUntilError_oneShot (.initKey hd hk none none) hd input s⟩

end Sys2Proof.Machine
end

section
/-! The word codec, the compression core and the seeds (spec/40_word_codec.md R110 to R112; spec/41_compression.md R121 to
R128; spec/42_parameter_block.md R144, R145), and the fixed tables. -/

namespace Sys2Proof.Machine

/-! ### Bytes of words -/

/-- A stored byte is the field of the word at its place (R111). -/
theorem getElem_store64 (w : Word) {i : Nat} (hi : i < 8) : (store64 w)[i] = w.extractLsb' (8 * i) 8 := by
  rw [store64, Vector.getElem_ofFn]
  rfl

/-- Settles O1: byte for byte the loaded word is the vector it was loaded from. -/
theorem codecInverse : Obligations.CodecInverse := by
  refine ⟨fun b => ?_, load64_store64⟩
  ext i hi : 1
  rw [getElem_store64 _ hi]
  exact loadReadsLittleEndian b ⟨i, hi⟩

/-- Byte `8j + i` of a list of stored words is byte `i` of word `j`. -/
theorem getElem?_flatMap_store64 (ws : List Word) {i j : Nat} (hi : i < 8) (hj : j < ws.length) :
    (ws.flatMap fun w => (store64 w).toList)[8 * j + i]? = some ((ws[j]).extractLsb' (8 * i) 8) := by
  induction ws generalizing j with
  | nil => exact absurd hj (Nat.not_lt_zero j)
  | cons w ws ih =>
    rw [List.flatMap_cons]
    cases j with
    | zero =>
      rw [List.getElem?_append_left (by simpa using hi), ← getElem_store64 _ hi]
      simp [hi]
    | succ j =>
      rw [List.getElem?_append_right (by simp; omega), Vector.length_toList,
        show 8 * (j + 1) + i - 8 = 8 * j + i by omega, ih (Nat.lt_of_succ_lt_succ hj)]
      rfl

/-- Settles O18: byte `k` is byte `k mod 8` of stored word `k div 8`. -/
theorem digestBytes : Obligations.DigestBytes := by
  intro h
  refine ⟨length_serialize h, fun k => ?_⟩
  have hbyte := getElem?_flatMap_store64 h.toList (i := k.val % 8) (j := k.val / 8) (by omega) (by simp; omega)
  rw [Nat.div_add_mod] at hbyte
  exact hbyte

/-! ### G and the rounds -/

/-- Four statements of G, with the two rotations they use (R123). -/
def halfG (v : Words16) (a b c d : Fin 16) (x : Word) (p q : Nat) : Words16 :=
  let v := v.set a (v[a] + v[b] + x)
  let v := v.set d (rotr (v[d] ^^^ v[a]) p)
  let v := v.set c (v[c] + v[d])
  v.set b (rotr (v[b] ^^^ v[c]) q)

/-- G is twice the same four statements (R123). -/
theorem mixG_eq_halfG (v : Words16) (a b c d : Fin 16) (x y : Word) :
    mixG v a b c d x y = halfG (halfG v a b c d x 32 24) a b c d y 16 63 := rfl

theorem getElem_set_other (v : Words16) {i j : Fin 16} (h : i ≠ j) (w : Word) : (v.set i w)[j] = v[j] :=
  Vector.getElem_set_ne (xs := v) _ _ (mt Fin.ext h)

theorem getElem_set_own (v : Words16) (i : Fin 16) (w : Word) : (v.set i w)[i] = w := Vector.getElem_set_self _

/-- Each of the four statements reads what the ones before it wrote, the indices being distinct (R123). -/
theorem halfG_words (v : Words16) {a b c d : Fin 16} (hnodup : [a, b, c, d].Nodup) (x : Word) (p q : Nat) :
    let a' := v[a] + v[b] + x
    let d' := rotr (v[d] ^^^ a') p
    let c' := v[c] + d'
    (halfG v a b c d x p q)[a] = a' ∧ (halfG v a b c d x p q)[b] = rotr (v[b] ^^^ c') q ∧
      (halfG v a b c d x p q)[c] = c' ∧ (halfG v a b c d x p q)[d] = d' := by
  have hne : (a ≠ b ∧ a ≠ c ∧ a ≠ d) ∧ (b ≠ c ∧ b ≠ d) ∧ c ≠ d := by simpa using hnodup
  obtain ⟨⟨hab, hac, had⟩, ⟨hbc, hbd⟩, hcd⟩ := hne
  simp only [halfG, getElem_set_own, getElem_set_other _ hab, getElem_set_other _ hac, getElem_set_other _ had,
    getElem_set_other _ hbc, getElem_set_other _ hcd, getElem_set_other _ hbd, getElem_set_other _ hab.symm,
    getElem_set_other _ hac.symm, getElem_set_other _ had.symm, getElem_set_other _ hbc.symm,
    getElem_set_other _ hbd.symm, getElem_set_other _ hcd.symm, and_self]

theorem halfG_frame (v : Words16) {a b c d k : Fin 16} (hk : k ∉ [a, b, c, d]) (x : Word) (p q : Nat) :
    (halfG v a b c d x p q)[k] = v[k] := by
  have hne : k ≠ a ∧ k ≠ b ∧ k ≠ c ∧ k ≠ d := by simpa using hk
  obtain ⟨ha, hb, hc, hd⟩ := hne
  simp only [halfG, getElem_set_other _ ha.symm, getElem_set_other _ hb.symm, getElem_set_other _ hc.symm,
    getElem_set_other _ hd.symm]

/-- G changes only its four words (R123). -/
theorem mixG_frame (v : Words16) {a b c d k : Fin 16} (hk : k ∉ [a, b, c, d]) (x y : Word) :
    (mixG v a b c d x y)[k] = v[k] :=
  (halfG_frame _ hk y 16 63).trans (halfG_frame v hk x 32 24)

/-- Settles O3: the second four statements read the words the first four left. -/
theorem mixGRunsItsEightStatements : Obligations.MixGRunsItsEightStatements := by
  intro v a b c d x y hnodup
  obtain ⟨ha, hb, hc, hd⟩ := halfG_words v hnodup x 32 24
  obtain ⟨ha', hb', hc', hd'⟩ := halfG_words (halfG v a b c d x 32 24) hnodup y 16 63
  rw [ha, hb, hc, hd] at hb'
  rw [ha, hb, hc, hd] at hc'
  rw [ha, hb] at ha'
  rw [ha, hb, hd] at hd'
  exact ⟨ha', hb', hc', hd', fun k hk => mixG_frame v hk x y⟩

/-- G reads only its four words (R123). -/
theorem mixG_congr {v w : Words16} {a b c d : Fin 16} (hnodup : [a, b, c, d].Nodup)
    (h : ∀ k : Fin 16, k ∈ [a, b, c, d] → v[k] = w[k]) (x y : Word) {k : Fin 16} (hk : k ∈ [a, b, c, d]) :
    (mixG v a b c d x y)[k] = (mixG w a b c d x y)[k] := by
  obtain ⟨ha, hb, hc, hd, -⟩ := mixGRunsItsEightStatements v a b c d x y hnodup
  obtain ⟨ha', hb', hc', hd', -⟩ := mixGRunsItsEightStatements w a b c d x y hnodup
  rw [h a (by simp), h b (by simp), h c (by simp), h d (by simp)] at ha hb hc hd
  simp only [List.mem_cons, List.not_mem_nil, or_false] at hk
  obtain rfl | rfl | rfl | rfl := hk
  · exact ha.trans ha'.symm
  · exact hb.trans hb'.symm
  · exact hc.trans hc'.symm
  · exact hd.trans hd'.symm

/-- Behind a G on other words, a G leaves its own words as it would without it. -/
theorem mixG_mixG_own {a b c d a' b' c' d' : Fin 16} (hnodup : [a, b, c, d].Nodup)
    (hdisjoint : [a, b, c, d].Disjoint [a', b', c', d']) (v : Words16) (x y x' y' : Word) {k : Fin 16}
    (hk : k ∈ [a, b, c, d]) :
    (mixG (mixG v a' b' c' d' x' y') a b c d x y)[k] = (mixG (mixG v a b c d x y) a' b' c' d' x' y')[k] := by
  have hagree (j : Fin 16) (hj : j ∈ [a, b, c, d]) : (mixG v a' b' c' d' x' y')[j] = v[j] :=
    mixG_frame v (hdisjoint hj) x' y'
  rw [mixG_frame (mixG v a b c d x y) (hdisjoint hk) x' y', mixG_congr hnodup hagree x y hk]

theorem words_ext {v w : Words16} (h : ∀ k : Fin 16, v[k] = w[k]) : v = w := Vector.ext fun i hi => h ⟨i, hi⟩

/-- Two G on disjoint words commute (R128). -/
theorem mixG_comm {a b c d a' b' c' d' : Fin 16} (hnodup : [a, b, c, d].Nodup) (hnodup' : [a', b', c', d'].Nodup)
    (hdisjoint : [a, b, c, d].Disjoint [a', b', c', d']) (v : Words16) (x y x' y' : Word) :
    mixG (mixG v a b c d x y) a' b' c' d' x' y' = mixG (mixG v a' b' c' d' x' y') a b c d x y := by
  refine words_ext fun k => ?_
  by_cases hk : k ∈ [a, b, c, d]
  · rw [mixG_mixG_own hnodup hdisjoint v x y x' y' hk]
  · by_cases hk' : k ∈ [a', b', c', d']
    · rw [mixG_mixG_own hnodup' hdisjoint.symm v x' y' x y hk']
    · rw [mixG_frame _ hk', mixG_frame _ hk, mixG_frame _ hk, mixG_frame _ hk']

/-- The words that G number `i` of a round works on (R124). -/
def mixWords (i : Fin 8) : List (Fin 16) :=
  [(mixIndices i).1, (mixIndices i).2.1, (mixIndices i).2.2.1, (mixIndices i).2.2.2]

theorem nodup_mixWords : ∀ i, (mixWords i).Nodup := by decide

theorem disjoint_columns : ∀ i ∈ ([0, 1, 2, 3] : List (Fin 8)), ∀ j ∈ ([0, 1, 2, 3] : List (Fin 8)), i ≠ j →
    ∀ k ∈ mixWords i, k ∉ mixWords j := by decide

theorem disjoint_diagonals : ∀ i ∈ ([4, 5, 6, 7] : List (Fin 8)), ∀ j ∈ ([4, 5, 6, 7] : List (Fin 8)), i ≠ j →
    ∀ k ∈ mixWords i, k ∉ mixWords j := by decide

theorem mixNumber_comm (m : Words16) (s : Vector (Fin 16) 16) {i j : Fin 8}
    (hdisjoint : i ≠ j → ∀ k ∈ mixWords i, k ∉ mixWords j) (v : Words16) :
    mixNumber m s (mixNumber m s v i) j = mixNumber m s (mixNumber m s v j) i := by
  by_cases hij : i = j
  · rw [hij]
  · exact mixG_comm (nodup_mixWords i) (nodup_mixWords j) (fun k => hdisjoint hij k) v _ _ _ _

/-- Settles O4: the mixes of one half work on disjoint words, so a permutation of them is reached by swaps. -/
theorem halfRoundMixesInAnyOrder : Obligations.HalfRoundMixesInAnyOrder := by
  intro m s v order
  refine ⟨fun hperm => ?_, fun hperm => ?_⟩
  · exact (hperm.symm.foldl_eq' (fun i hi j hj w => mixNumber_comm m s (disjoint_columns i hi j hj) w) v).symm
  · exact (hperm.symm.foldl_eq' (fun i hi j hj w => mixNumber_comm m s (disjoint_diagonals i hi j hj) w) v).symm

/-- A round is its eight G in order (R124). -/
theorem mixRound_eq_foldl (v m : Words16) (r : Nat) :
    mixRound v m r = ([0, 1, 2, 3, 4, 5, 6, 7] : List (Fin 8)).foldl (mixNumber m (sigmaRow r)) v := rfl

theorem rounds_eq_foldl (m : Words16) (n r : Nat) (v : Words16) :
    rounds m n r v = (List.range' r n).foldl (fun v r => mixRound v m r) v := by
  induction n generalizing r v with
  | zero => rfl
  | succ n ih => rw [rounds, ih, List.range'_succ, List.foldl_cons]

/-! ### COMPRESS -/

theorem getElem_workVector_of_lt (h : Vector Word 8) (t0 t1 : Word) (f0 f1 : Bool) {i : Nat} (hi : i < 8) :
    (workVector h t0 t1 f0 f1)[i] = h[i] := by
  cases f0 <;> cases f1 <;> simp [workVector, hi, show 12 ≠ i by omega, show 13 ≠ i by omega,
    show 14 ≠ i by omega, show 15 ≠ i by omega]

/-- Settles O5: each word of the vector is set at most once after it was filled. -/
theorem workVectorBeforeRounds : Obligations.WorkVectorBeforeRounds := by
  intro h t0 t1 f0 f1
  refine ⟨fun i => getElem_workVector_of_lt h t0 t1 f0 f1 i.isLt, ?_⟩
  cases f0 <;> cases f1 <;> simp [workVector]

/-- Byte `k` of a block is byte `k mod 8` of message word `k div 8` (R125). -/
theorem extractLsb'_messageWords (block : Vector Byte 128) (k : Fin 128) :
    ((messageWords block)[k.val / 8]'(by omega)).extractLsb' (8 * (k.val % 8)) 8 = block[k] := by
  have hbyte := loadReadsLittleEndian (Vector.ofFn fun j : Fin 8 => block[8 * (k.val / 8) + j.val]'(by omega))
    ⟨k.val % 8, by omega⟩
  rw [messageWords, Vector.getElem_ofFn, lane, hbyte]
  simp [Nat.div_add_mod]

/-- Settles O55: the message words, the initial work vector, the rounds as their G in order, and the feed-forward. -/
theorem compressFollowsItsPseudocode : Obligations.CompressFollowsItsPseudocode := by
  intro h block t0 t1 f0 f1
  obtain ⟨hh, h8, h9, h10, h11, h12, h13, h14, h15⟩ := workVectorBeforeRounds h t0 t1 f0 f1
  refine ⟨messageWords block, workVector h t0 t1 f0 f1, _, extractLsb'_messageWords block, hh, fun i => ?_, h12, h13, h14,
    h15, rfl, fun i => ?_⟩
  · match i with
    | 0 => exact h8
    | 1 => exact h9
    | 2 => exact h10
    | 3 => exact h11
  · rw [compress, rounds_eq_foldl, feedForward, ← List.range_eq_range']
    exact Vector.getElem_ofFn _

/-! ### The seeds -/

theorem getElem_seed (dl kl : Nat) (salt personal : Option Bytes16) {i : Nat} (hi : i < 8) :
    (seed dl kl salt personal)[i] =
      IV[i] ^^^ lane (packParams dl kl (orZeros salt) (orZeros personal)) i (by omega) := by
  rw [seed, paramApply, Vector.getElem_ofFn]

/-- Lanes of equal bytes are equal. -/
theorem lane_congr {n n' : Nat} {b : Vector Byte n} {b' : Vector Byte n'} {i i' : Nat} (h : 8 * i + 8 ≤ n)
    (h' : 8 * i' + 8 ≤ n') (hbytes : ∀ j : Fin 8, b[8 * i + j.val]'(by omega) = b'[8 * i' + j.val]'(by omega)) :
    lane b i h = lane b' i' h' := by
  rw [lane, lane]
  congr 1
  ext j hj : 1
  rw [Vector.getElem_ofFn, Vector.getElem_ofFn]
  exact hbytes ⟨j, hj⟩

/-- The lane of the lengths and the tree-mode constants (R144). -/
theorem lane_packParams_zero {dl kl : Nat} (hdl : dl ≤ 64) (hkl : kl ≤ 64) (salt personal : Bytes16) :
    lane (packParams dl kl salt personal) 0 (by decide) = BitVec.ofNat 64 (0x01010000 + 256 * kl + dl) := by
  obtain ⟨h0, h1, h2, h3⟩ := packParams_lengths dl kl salt personal
  have hz {i : Nat} (h4 : 4 ≤ i) (h8 : i < 8) : (packParams dl kl salt personal)[i] = 0 := by
    rw [getElem_packParams_of_four_le _ _ _ _ _ h4, if_pos (by omega)]
  apply BitVec.eq_of_toNat_eq
  rw [lane, toNat_load64, BitVec.toNat_ofNat]
  simp only [Vector.getElem_ofFn, Nat.mul_zero, Nat.zero_add, h0, h1, h2, h3, hz (i := 4) (by decide) (by decide),
    hz (i := 5) (by decide) (by decide), hz (i := 6) (by decide) (by decide), hz (i := 7) (by decide) (by decide)]
  simp
  omega

/-- The lanes of the bytes that are always zero (R142, R144). -/
theorem lane_packParams_mid (dl kl : Nat) (salt personal : Bytes16) {i : Nat} (h1 : 1 ≤ i) (h4 : i < 4) :
    lane (packParams dl kl salt personal) i (by omega) = 0#64 := by
  refine (lane_congr (b' := Vector.replicate 8 (0 : Byte)) (i' := 0) _ (by decide) fun j => ?_).trans (by decide)
  rw [getElem_packParams_of_four_le _ _ _ _ _ (by omega), if_pos (by omega), Vector.getElem_replicate]

theorem lane_packParams_salt (dl kl : Nat) (salt personal : Bytes16) {i : Nat} (hi : i < 2) :
    lane (packParams dl kl salt personal) (4 + i) (by omega) = lane salt i (by omega) := by
  refine lane_congr _ _ fun j => ?_
  rw [getElem_packParams_of_four_le _ _ _ _ _ (by omega), if_neg (by omega), dif_pos (by omega)]
  congr 1
  omega

theorem lane_packParams_personal (dl kl : Nat) (salt personal : Bytes16) {i : Nat} (hi : i < 2) :
    lane (packParams dl kl salt personal) (6 + i) (by omega) = lane personal i (by omega) := by
  refine lane_congr _ _ fun j => ?_
  rw [getElem_packParams_of_four_le _ _ _ _ _ (by omega), if_neg (by omega), dif_neg (by omega)]
  congr 1
  omega

/-- The seed of legal lengths, word by word (R144). -/
theorem seedWords_seed {dl kl : Nat} (hdl : dl ≤ 64) (hkl : kl ≤ 64) (salt personal : Option Bytes16) :
    SeedWords (seed dl kl salt personal) dl kl (orZeros salt) (orZeros personal) where
  word0 := by rw [getElem_seed, lane_packParams_zero hdl hkl]
  word1 := by rw [getElem_seed, lane_packParams_mid _ _ _ _ (by decide) (by decide), BitVec.xor_zero]
  word2 := by rw [getElem_seed, lane_packParams_mid _ _ _ _ (by decide) (by decide), BitVec.xor_zero]
  word3 := by rw [getElem_seed, lane_packParams_mid _ _ _ _ (by decide) (by decide), BitVec.xor_zero]
  word4 := (getElem_seed _ _ _ _ _).trans (congrArg _ (lane_packParams_salt (i := 0) _ _ _ _ (by decide)))
  word5 := (getElem_seed _ _ _ _ _).trans (congrArg _ (lane_packParams_salt (i := 1) _ _ _ _ (by decide)))
  word6 := (getElem_seed _ _ _ _ _).trans (congrArg _ (lane_packParams_personal (i := 0) _ _ _ _ (by decide)))
  word7 := (getElem_seed _ _ _ _ _).trans (congrArg _ (lane_packParams_personal (i := 1) _ _ _ _ (by decide)))

/-- Settles O7: both commands leave their seed in `h`. -/
theorem sessionStartSeedsEveryWord : Obligations.SessionStartSeedsEveryWord := by
  intro s dlen key salt personal hd
  refine ⟨?_, fun hk => ?_⟩
  · obtain ⟨t, ht, -, hh, -⟩ := (initResult s dlen salt personal).1 hd
    exact ⟨t, ht, hh ▸ seedWords_seed hd.2 (Nat.zero_le _) salt personal⟩
  · obtain ⟨t, ht, -, hh, -⟩ := (initKeyResult s dlen key salt personal).1 hd hk
    exact ⟨t, ht, hh ▸ seedWords_seed hd.2 hk.2 salt personal⟩

/-- Settles O8: the two lengths are digits to base 256 of what is mixed into `h[0]`. -/
theorem lengthsSeparateSeeds : Obligations.LengthsSeparateSeeds := by
  intro d d' k k' salt salt' personal personal' _ hd _ hd' hk hk' hne heq
  rw [(seedWords_seed hd hk salt personal).word0, (seedWords_seed hd' hk' salt' personal').word0,
    BitVec.xor_right_inj] at heq
  have hnat := congrArg BitVec.toNat heq
  rw [BitVec.toNat_ofNat, BitVec.toNat_ofNat] at hnat
  omega

/-! ### Fixed tables and samples -/

/-- Settles O26: the table of status bytes is `CmdError.code`. -/
theorem statusBytes : Obligations.StatusBytes := ⟨fun _ => rfl, rfl, rfl, rfl, rfl, rfl, fun _ => rfl⟩

/-- Settles O41: five packets through the decoder. -/
theorem sampleWordsDecode : Obligations.SampleWordsDecode := by
  unfold Obligations.SampleWordsDecode
  decide

/-- Settles O56: the ten rows, checked entry by entry. -/
theorem sigmaRowsArePermutations : Obligations.SigmaRowsArePermutations := by
  unfold Obligations.SigmaRowsArePermutations
  decide

end Sys2Proof.Machine
end
